-- ==== Sys2Proof/Word.lean ====
section
/-! DEFINITION. The word types of the machine (00_scope.md R5): widths and names only. -/

namespace Sys2Proof

/-- One byte: a general register, a timer, a byte of memory (R5). -/
abbrev Byte := BitVec 8

/-- An opcode: "a 16-bit instruction word fetched from memory" (00_scope.md glossary, 30_encoding.md R70). -/
abbrev Word := BitVec 16

/-- A 12-bit address value, as `pc`, `I`, a stack entry and the field NNN hold it (R5). Arithmetic on it
wraps modulo 4096, as 10_state.md R23 and R24 require of every value written to `pc` and `I`. -/
abbrev Addr := BitVec 12

/-- A 4-bit field of an opcode (30_encoding.md R71). -/
abbrev Nibble := BitVec 4

/-- A register number 0..15, as the fields X and Y hold it (30_encoding.md R72). -/
abbrev RegName := BitVec 4

end Sys2Proof
end

