-- ==== Sys2Proof/Syntax.lean ====
section
/-! DEFINITION. The instructions: one constructor per row of the opcode map (30_encoding.md R75). -/

namespace Sys2Proof

/-- The 34 instructions of 30_encoding.md R75, operands as R72 gives them. The argument `u` of `cls`, `ret`,
`seReg` and `sneReg` is the nibble of the word that the decoder does not check (R73, R74): no instruction's
effect depends on it, and it is kept only because a fault reports the word as it was fetched
(60_exceptions.md R224; DESIGN CHOICE, log 7). -/
inductive Instr where
  /-- `0uE0` CLS -/
  | cls (u : Nibble)
  /-- `0uEE` RET -/
  | ret (u : Nibble)
  /-- `1NNN` JP NNN -/
  | jp (nnn : Addr)
  /-- `2NNN` CALL NNN -/
  | call (nnn : Addr)
  /-- `3XNN` SE VX, NN -/
  | seImm (x : RegName) (nn : Byte)
  /-- `4XNN` SNE VX, NN -/
  | sneImm (x : RegName) (nn : Byte)
  /-- `5XYu` SE VX, VY -/
  | seReg (x y : RegName) (u : Nibble)
  /-- `6XNN` LD VX, NN -/
  | ldImm (x : RegName) (nn : Byte)
  /-- `7XNN` ADD VX, NN -/
  | addImm (x : RegName) (nn : Byte)
  /-- `8XY0` LD VX, VY -/
  | ldReg (x y : RegName)
  /-- `8XY1` OR VX, VY -/
  | orReg (x y : RegName)
  /-- `8XY2` AND VX, VY -/
  | andReg (x y : RegName)
  /-- `8XY3` XOR VX, VY -/
  | xorReg (x y : RegName)
  /-- `8XY4` ADD VX, VY -/
  | addReg (x y : RegName)
  /-- `8XY5` SUB VX, VY -/
  | subReg (x y : RegName)
  /-- `8XY6` SHR VX (Y is decoded and unused) -/
  | shr (x y : RegName)
  /-- `8XY7` SUBN VX, VY -/
  | subn (x y : RegName)
  /-- `8XYE` SHL VX (Y is decoded and unused) -/
  | shl (x y : RegName)
  /-- `9XYu` SNE VX, VY -/
  | sneReg (x y : RegName) (u : Nibble)
  /-- `ANNN` LD I, NNN -/
  | ldI (nnn : Addr)
  /-- `BNNN` JP V0, NNN -/
  | jpV0 (nnn : Addr)
  /-- `CXNN` RND VX, NN -/
  | rnd (x : RegName) (nn : Byte)
  /-- `DXYN` DRW VX, VY, N -/
  | drw (x y : RegName) (n : Nibble)
  /-- `EX9E` SKP VX -/
  | skp (x : RegName)
  /-- `EXA1` SKNP VX -/
  | sknp (x : RegName)
  /-- `FX07` LD VX, DT -/
  | ldVxDt (x : RegName)
  /-- `FX0A` LD VX, K -/
  | ldVxK (x : RegName)
  /-- `FX15` LD DT, VX -/
  | ldDtVx (x : RegName)
  /-- `FX18` LD ST, VX -/
  | ldStVx (x : RegName)
  /-- `FX1E` ADD I, VX -/
  | addI (x : RegName)
  /-- `FX29` LD F, VX -/
  | ldF (x : RegName)
  /-- `FX33` LD B, VX -/
  | ldB (x : RegName)
  /-- `FX55` LD [I], VX -/
  | stRegs (x : RegName)
  /-- `FX65` LD VX, [I] -/
  | ldRegs (x : RegName)
deriving DecidableEq, Repr

end Sys2Proof
end

