-- ==== Sys2Proof/Decode.lean ====
section
/-! DEFINITION. The field decoder, the decoder, the encoder and the opcode map (30_encoding.md). -/

namespace Sys2Proof

/-! ### The field decoder (R71): pure functions of a word -/

/-- G, the group: `oc[15:12]`. -/
def fieldG (oc : Word) : Nibble := oc.extractLsb' 12 4

/-- X: `oc[11:8]`. -/
def fieldX (oc : Word) : Nibble := oc.extractLsb' 8 4

/-- Y: `oc[7:4]`. -/
def fieldY (oc : Word) : Nibble := oc.extractLsb' 4 4

/-- N: `oc[3:0]`. -/
def fieldN (oc : Word) : Nibble := oc.extractLsb' 0 4

/-- NN: `oc[7:0]`. -/
def fieldNN (oc : Word) : Byte := oc.extractLsb' 0 8

/-- NNN: `oc[11:0]`. -/
def fieldNNN (oc : Word) : Addr := oc.extractLsb' 0 12

/-- The word of two fetched bytes, big-endian: `hi * 256 + lo` (20_memory.md R54). -/
def wordOfBytes (hi lo : Byte) : Word := hi ++ lo

/-- The bytes of a word, the one at the lower address first (20_memory.md R54). -/
def bytesOfWord (oc : Word) : Byte × Byte := (oc.extractLsb' 8 8, oc.extractLsb' 0 8)

/-! ### The decoder (R73, R74, R77) -/

/-- Why bytes are no instruction. -/
inductive DecodeReject where
  /-- The word matches no row of the opcode map (R76): `Unrecognized(oc)` of R77. -/
  | unrecognized (oc : Word)
  /-- Fewer than the two bytes of an instruction (R70). -/
  | truncated
deriving DecidableEq, Repr

/-- Group 0x0 dispatches on NN alone; the X nibble is not checked (R74). -/
def decodeGroup0 (oc : Word) : Except DecodeReject Instr :=
  if fieldNN oc = 0xE0 then .ok (.cls (fieldX oc))
  else if fieldNN oc = 0xEE then .ok (.ret (fieldX oc))
  else .error (.unrecognized oc)

/-- Group 0x8 dispatches on N (R74). -/
def decodeGroup8 (oc : Word) : Except DecodeReject Instr :=
  match (fieldN oc).toNat with
  | 0x0 => .ok (.ldReg (fieldX oc) (fieldY oc))
  | 0x1 => .ok (.orReg (fieldX oc) (fieldY oc))
  | 0x2 => .ok (.andReg (fieldX oc) (fieldY oc))
  | 0x3 => .ok (.xorReg (fieldX oc) (fieldY oc))
  | 0x4 => .ok (.addReg (fieldX oc) (fieldY oc))
  | 0x5 => .ok (.subReg (fieldX oc) (fieldY oc))
  | 0x6 => .ok (.shr (fieldX oc) (fieldY oc))
  | 0x7 => .ok (.subn (fieldX oc) (fieldY oc))
  | 0xE => .ok (.shl (fieldX oc) (fieldY oc))
  | _ => .error (.unrecognized oc)

/-- Group 0xE dispatches on NN (R74). -/
def decodeGroupE (oc : Word) : Except DecodeReject Instr :=
  if fieldNN oc = 0x9E then .ok (.skp (fieldX oc))
  else if fieldNN oc = 0xA1 then .ok (.sknp (fieldX oc))
  else .error (.unrecognized oc)

/-- Group 0xF dispatches on NN, nine selectors (R74). -/
def decodeGroupF (oc : Word) : Except DecodeReject Instr :=
  match (fieldNN oc).toNat with
  | 0x07 => .ok (.ldVxDt (fieldX oc))
  | 0x0A => .ok (.ldVxK (fieldX oc))
  | 0x15 => .ok (.ldDtVx (fieldX oc))
  | 0x18 => .ok (.ldStVx (fieldX oc))
  | 0x1E => .ok (.addI (fieldX oc))
  | 0x29 => .ok (.ldF (fieldX oc))
  | 0x33 => .ok (.ldB (fieldX oc))
  | 0x55 => .ok (.stRegs (fieldX oc))
  | 0x65 => .ok (.ldRegs (fieldX oc))
  | _ => .error (.unrecognized oc)

/-- The decoder: total on every word, reads nothing but the word (R77). The top nibble selects, then a
secondary nibble or byte in groups 0, 8, E and F (R73). -/
def decode (oc : Word) : Except DecodeReject Instr :=
  match (fieldG oc).toNat with
  | 0x0 => decodeGroup0 oc
  | 0x1 => .ok (.jp (fieldNNN oc))
  | 0x2 => .ok (.call (fieldNNN oc))
  | 0x3 => .ok (.seImm (fieldX oc) (fieldNN oc))
  | 0x4 => .ok (.sneImm (fieldX oc) (fieldNN oc))
  | 0x5 => .ok (.seReg (fieldX oc) (fieldY oc) (fieldN oc))
  | 0x6 => .ok (.ldImm (fieldX oc) (fieldNN oc))
  | 0x7 => .ok (.addImm (fieldX oc) (fieldNN oc))
  | 0x8 => decodeGroup8 oc
  | 0x9 => .ok (.sneReg (fieldX oc) (fieldY oc) (fieldN oc))
  | 0xA => .ok (.ldI (fieldNNN oc))
  | 0xB => .ok (.jpV0 (fieldNNN oc))
  | 0xC => .ok (.rnd (fieldX oc) (fieldNN oc))
  | 0xD => .ok (.drw (fieldX oc) (fieldY oc) (fieldN oc))
  | 0xE => decodeGroupE oc
  | _ => decodeGroupF oc

/-- Decoding from bytes, the first at the lowest address: an instruction and the bytes after it. -/
def decodeBytes : List Byte → Except DecodeReject (Instr × List Byte)
  | hi :: lo :: rest =>
    match decode (wordOfBytes hi lo) with
    | .ok i => .ok (i, rest)
    | .error r => .error r
  | _ => .error .truncated

/-! ### The encoder, written from the patterns of R75 -/

/-- Three nibbles after the group: `G X Y N`. -/
def encodeGXYN (g x y n : Nibble) : Word := g ++ x ++ y ++ n

/-- A nibble and a byte after the group: `G X NN`. -/
def encodeGXNN (g x : Nibble) (nn : Byte) : Word := g ++ x ++ nn

/-- An address after the group: `G NNN`. -/
def encodeGNNN (g : Nibble) (nnn : Addr) : Word := g ++ nnn

/-- The word of an instruction (R75). -/
def encode : Instr → Word
  | .cls u => encodeGXNN 0x0 u 0xE0
  | .ret u => encodeGXNN 0x0 u 0xEE
  | .jp nnn => encodeGNNN 0x1 nnn
  | .call nnn => encodeGNNN 0x2 nnn
  | .seImm x nn => encodeGXNN 0x3 x nn
  | .sneImm x nn => encodeGXNN 0x4 x nn
  | .seReg x y u => encodeGXYN 0x5 x y u
  | .ldImm x nn => encodeGXNN 0x6 x nn
  | .addImm x nn => encodeGXNN 0x7 x nn
  | .ldReg x y => encodeGXYN 0x8 x y 0x0
  | .orReg x y => encodeGXYN 0x8 x y 0x1
  | .andReg x y => encodeGXYN 0x8 x y 0x2
  | .xorReg x y => encodeGXYN 0x8 x y 0x3
  | .addReg x y => encodeGXYN 0x8 x y 0x4
  | .subReg x y => encodeGXYN 0x8 x y 0x5
  | .shr x y => encodeGXYN 0x8 x y 0x6
  | .subn x y => encodeGXYN 0x8 x y 0x7
  | .shl x y => encodeGXYN 0x8 x y 0xE
  | .sneReg x y u => encodeGXYN 0x9 x y u
  | .ldI nnn => encodeGNNN 0xA nnn
  | .jpV0 nnn => encodeGNNN 0xB nnn
  | .rnd x nn => encodeGXNN 0xC x nn
  | .drw x y n => encodeGXYN 0xD x y n
  | .skp x => encodeGXNN 0xE x 0x9E
  | .sknp x => encodeGXNN 0xE x 0xA1
  | .ldVxDt x => encodeGXNN 0xF x 0x07
  | .ldVxK x => encodeGXNN 0xF x 0x0A
  | .ldDtVx x => encodeGXNN 0xF x 0x15
  | .ldStVx x => encodeGXNN 0xF x 0x18
  | .addI x => encodeGXNN 0xF x 0x1E
  | .ldF x => encodeGXNN 0xF x 0x29
  | .ldB x => encodeGXNN 0xF x 0x33
  | .stRegs x => encodeGXNN 0xF x 0x55
  | .ldRegs x => encodeGXNN 0xF x 0x65

/-- The bytes of an instruction as they stand in memory (20_memory.md R54). -/
def encodeBytes (i : Instr) : List Byte := [(bytesOfWord (encode i)).1, (bytesOfWord (encode i)).2]

/-- A hexadecimal digit. -/
def hexDigit (n : Nibble) : Char :=
  (['0', '1', '2', '3', '4', '5', '6', '7'] ++ ['8', '9', 'A', 'B', 'C', 'D', 'E', 'F']).getD n.toNat '0'

/-- The spelling of an instruction: its pattern with the fields filled in as hexadecimal digits (R79; where the
decoder does not check a digit, the one the word has, log 7). -/
def Instr.spelling (i : Instr) : String :=
  String.ofList ([fieldG (encode i), fieldX (encode i), fieldY (encode i), fieldN (encode i)].map hexDigit)

/-! ### The opcode map (R75) -/

/-- One row of the opcode map: `(oc & mask) == match` selects it. -/
structure OpcodeRow where
  matchBits : Word
  mask : Word
deriving DecidableEq, Repr

/-- `(oc & mask) == match` (R75). -/
def OpcodeRow.selects (row : OpcodeRow) (oc : Word) : Bool := oc &&& row.mask == row.matchBits

/-- The row of R75 that an instruction belongs to. -/
def Instr.row : Instr → OpcodeRow
  | .cls _ => ⟨0x00E0, 0xF0FF⟩
  | .ret _ => ⟨0x00EE, 0xF0FF⟩
  | .jp _ => ⟨0x1000, 0xF000⟩
  | .call _ => ⟨0x2000, 0xF000⟩
  | .seImm _ _ => ⟨0x3000, 0xF000⟩
  | .sneImm _ _ => ⟨0x4000, 0xF000⟩
  | .seReg _ _ _ => ⟨0x5000, 0xF000⟩
  | .ldImm _ _ => ⟨0x6000, 0xF000⟩
  | .addImm _ _ => ⟨0x7000, 0xF000⟩
  | .ldReg _ _ => ⟨0x8000, 0xF00F⟩
  | .orReg _ _ => ⟨0x8001, 0xF00F⟩
  | .andReg _ _ => ⟨0x8002, 0xF00F⟩
  | .xorReg _ _ => ⟨0x8003, 0xF00F⟩
  | .addReg _ _ => ⟨0x8004, 0xF00F⟩
  | .subReg _ _ => ⟨0x8005, 0xF00F⟩
  | .shr _ _ => ⟨0x8006, 0xF00F⟩
  | .subn _ _ => ⟨0x8007, 0xF00F⟩
  | .shl _ _ => ⟨0x800E, 0xF00F⟩
  | .sneReg _ _ _ => ⟨0x9000, 0xF000⟩
  | .ldI _ => ⟨0xA000, 0xF000⟩
  | .jpV0 _ => ⟨0xB000, 0xF000⟩
  | .rnd _ _ => ⟨0xC000, 0xF000⟩
  | .drw _ _ _ => ⟨0xD000, 0xF000⟩
  | .skp _ => ⟨0xE09E, 0xF0FF⟩
  | .sknp _ => ⟨0xE0A1, 0xF0FF⟩
  | .ldVxDt _ => ⟨0xF007, 0xF0FF⟩
  | .ldVxK _ => ⟨0xF00A, 0xF0FF⟩
  | .ldDtVx _ => ⟨0xF015, 0xF0FF⟩
  | .ldStVx _ => ⟨0xF018, 0xF0FF⟩
  | .addI _ => ⟨0xF01E, 0xF0FF⟩
  | .ldF _ => ⟨0xF029, 0xF0FF⟩
  | .ldB _ => ⟨0xF033, 0xF0FF⟩
  | .stRegs _ => ⟨0xF055, 0xF0FF⟩
  | .ldRegs _ => ⟨0xF065, 0xF0FF⟩

/-- The rows of R75 in the map's order, with the masks written out again as the table gives them. -/
def opcodeMap : List OpcodeRow :=
  ([0x00E0, 0x00EE].map fun m => ⟨m, 0xF0FF⟩) ++
  ([0x1000, 0x2000, 0x3000, 0x4000, 0x5000, 0x6000, 0x7000].map fun m => ⟨m, 0xF000⟩) ++
  ([0x8000, 0x8001, 0x8002, 0x8003, 0x8004, 0x8005, 0x8006, 0x8007, 0x800E].map fun m => ⟨m, 0xF00F⟩) ++
  ([0x9000, 0xA000, 0xB000, 0xC000, 0xD000].map fun m => ⟨m, 0xF000⟩) ++
  ([0xE09E, 0xE0A1].map fun m => ⟨m, 0xF0FF⟩) ++
  ([0xF007, 0xF00A, 0xF015, 0xF018, 0xF01E, 0xF029, 0xF033, 0xF055, 0xF065].map fun m => ⟨m, 0xF0FF⟩)

/-! ### The host's view of the decoder -/

/-- The instruction word among the low `nbits` bits of `w`: an instruction is one 16-bit word (R70), so nothing
above bit 15 belongs to it. -/
def tableWord (nbits w : Nat) : Word := BitVec.ofNat 16 (w % 2 ^ nbits)

/-- The instruction the decoder reads from the bytes of a word numbered as the opcode table numbers it. -/
def decodeTableWord (nbits w : Nat) : Option Instr :=
  match decodeBytes [(bytesOfWord (tableWord nbits w)).1, (bytesOfWord (tableWord nbits w)).2] with
  | .ok (i, _) => some i
  | .error _ => none

end Sys2Proof
end

