-- ==== Sys2Proof/Config.lean ====
section
/-! DEFINITION. What an implementation of the core fixes (00_scope.md R5, R6) and its one free value. -/

namespace Sys2Proof

/-- `UNKNOWN_OPCODE_POLICY`, what a cycle does with an unrecognized word (00_scope.md R6, 60_exceptions.md
R226): go on with a diagnostic, or fault. -/
inductive UnknownOpcodePolicy where
  | continue
  | fault
deriving DecidableEq, Repr

namespace Config

/-- The policy of the machine that `step` runs: R6 names the default `continue` (log 3). -/
def unknownOpcodePolicy : UnknownOpcodePolicy := .continue

/-- 4096 bytes of memory, addresses 0x000..0xFFF (R5, 20_memory.md R50). -/
abbrev memorySize : Nat := 0x1000

/-- Programs are loaded, and execution starts, at 0x200 (R5, 70_reset_and_hazards.md R260, R262). -/
abbrev programBase : Nat := 0x200

/-- The longest program, 0x1000 - 0x200 = 3584 bytes (R5, 70_reset_and_hazards.md R263). -/
abbrev maxProgramLength : Nat := 3584

/-- The font table is 80 bytes, 16 glyphs of 5 (R5, 70_reset_and_hazards.md R261). -/
abbrev fontSize : Nat := 80

/-- The default value of the parameter `FONT`, glyphs 0 to F (92_eei_decisions.md D15). PRESUMED: the spec
takes it from general knowledge and the source settles the first byte only (log 2). -/
def defaultFont : List (BitVec 8) :=
  [0xF0, 0x90, 0x90, 0x90, 0xF0] ++ [0x20, 0x60, 0x20, 0x20, 0x70] ++
  [0xF0, 0x10, 0xF0, 0x80, 0xF0] ++ [0xF0, 0x10, 0xF0, 0x10, 0xF0] ++
  [0x90, 0x90, 0xF0, 0x10, 0x10] ++ [0xF0, 0x80, 0xF0, 0x10, 0xF0] ++
  [0xF0, 0x80, 0xF0, 0x90, 0xF0] ++ [0xF0, 0x10, 0x20, 0x40, 0x40] ++
  [0xF0, 0x90, 0xF0, 0x90, 0xF0] ++ [0xF0, 0x90, 0xF0, 0x10, 0xF0] ++
  [0xF0, 0x90, 0xF0, 0x90, 0x90] ++ [0xE0, 0x90, 0xE0, 0x90, 0xE0] ++
  [0xF0, 0x80, 0x80, 0x80, 0xF0] ++ [0xE0, 0x90, 0x90, 0x90, 0xE0] ++
  [0xF0, 0x80, 0xF0, 0x80, 0xF0] ++ [0xF0, 0x80, 0xF0, 0x80, 0x80]

/-- A draw in a cycle whose `rnd` byte the state does not name: the n-th such byte is any value 0..255
(42_alu.md R143, 60_exceptions.md R234). A FREE VALUE: it has no body, so nothing can be proved of it
(log 4). -/
opaque freeRnd : Nat → BitVec 8

end Config

end Sys2Proof
end

