-- ==== Sys2Proof/Machine/State.lean ====
section
/-! DEFINITION. The state of the core (10_state.md), the ways a step can stop, and the state after reset. -/

namespace Sys2Proof.Machine

/-- Memory as (address, byte) pairs, addresses strictly rising, listing only what differs from the reset
contents (20_memory.md R50). What an address that is not listed reads as, the reading, the writing and the canonical
form are in Machine/Ops.lean. -/
abbrev Memory := List Host.Cell

/-- The framebuffer `screen[x][y]`: 64 columns of 32 rows, on = true (10_state.md R29). -/
abbrev Screen := Vector (Vector Bool 32) 64

/-- The architectural state (10_state.md R20 to R31, R33), and last two fields that are not architectural state and
stand here only because `exec` and `step` take their input in the state: the model's own, for the `rnd`
input. -/
structure State where
  /-- The general registers `V[0]`..`V[15]`; `V[15]` is VF (R20, R21). -/
  V : Vector Byte 16
  /-- The program counter (R22). -/
  pc : Addr
  /-- The index register (R24). -/
  I : Addr
  /-- The stack depth, 0..16 (R25). -/
  sp : Fin 17
  /-- The return-address slots (R26). -/
  stack : Vector Addr 16
  /-- The delay timer (R27). -/
  delayTimer : Byte
  /-- The sound timer (R27). -/
  soundTimer : Byte
  /-- The draw flag (R28). -/
  isDrawing : Bool
  /-- The framebuffer (R29). -/
  screen : Screen
  /-- The pressed keys (R30); only the host writes them. -/
  keys : Vector Bool 16
  /-- The 4096 bytes of memory (R31). -/
  mem : Memory
  /-- The model's own: the byte on the `rnd` input for the one cycle that starts in this state, where it is named.
  No cycle leaves it to the next (R33, R35, 60_exceptions.md R234; log 4). -/
  rnd : Option Byte
  /-- The model's own: how many draws so far found no byte named; selects the next free value (log 4). -/
  rndDraws : Nat
deriving DecidableEq, Repr

/-- The faults of 60_exceptions.md R221 with the information of R224. A cycle that faults changes no state (R222),
so a fault carries none. All of them are safe: the run ends (R223) and no state claim can be drawn from it. -/
inductive Fault where
  /-- Code 1. Raised by 2NNN when `sp == 16` (41_control_flow.md R103). Safe. -/
  | stackOverflow (pc : Addr) (opcode : Word)
  /-- Code 2. Raised by 00EE when `sp == 0` (41_control_flow.md R101). Safe. -/
  | stackUnderflow (pc : Addr) (opcode : Word)
  /-- Code 3. Raised by the fetch at 0xFFF, without an opcode (40_fetch_execute.md R91), and by DXYN, FX33, FX55 and
  FX65 when a byte they use lies above 0xFFF (44_graphics.md R182, 43_index_memory.md R163 to R165). Safe. -/
  | outOfRangeAccess (pc : Addr) (opcode : Option Word) (addr : Nat)
  /-- Code 4. Raised by an unrecognized word under the policy `fault` (60_exceptions.md R226). Safe. -/
  | unknownOpcode (pc : Addr) (opcode : Word)
  /-- Code 5. Raised by the host's load of more than 3584 bytes (70_reset_and_hazards.md R263). Safe. -/
  | programTooLarge (length : Nat)
deriving DecidableEq, Repr

/-- Why a step could be refused. Every instruction of the table has a meaning, so no step is. -/
inductive Refusal where
  /-- An instruction without a meaning yet: raised by an arm of `exec` alone, and by none now. Safe. -/
  | notModelled (mnemonic : String)
deriving DecidableEq, Repr

/-- The state after `reset` (70_reset_and_hazards.md R260), `FONT` at its default (R261). Memory lists nothing: an
unlisted address reads as its reset content. -/
def State.reset : State where
  V := Vector.replicate 16 0
  pc := 0x200
  I := 0
  sp := 0
  stack := Vector.replicate 16 0
  delayTimer := 0
  soundTimer := 0
  isDrawing := false
  screen := Vector.replicate 64 (Vector.replicate 32 false)
  keys := Vector.replicate 16 false
  mem := []
  rnd := none
  rndDraws := 0

end Sys2Proof.Machine
end

