-- ==== Sys2Proof/Machine/Ops.lean ====
section
/-! DEFINITION. The named operations over memory, registers, the program counter, the stack, the screen and the
`rnd` input, and raising a fault. Every meaning is written over them. -/

namespace Sys2Proof.Machine

/-! ### Memory (20_memory.md) -/

/-- What an address that is not listed reads as, its reset content: `FONT` at 0x000..0x04F, 0 elsewhere
(20_memory.md R50, R60; log 2, log 6). -/
def Memory.unlisted (a : Nat) : Byte :=
  if a < Config.fontSize then Config.defaultFont.getD a 0 else 0

/-- The byte memory holds at an address. -/
def Memory.read : Memory → Nat → Byte
  | [], a => Memory.unlisted a
  | c :: m, a => if c.1 = a then c.2 else Memory.read m a

/-- Every listing of an address taken out. -/
def Memory.unlist (m : Memory) (a : Nat) : Memory := m.filter fun c => c.1 != a

/-- A listing put in before the first higher address. -/
def Memory.place : Memory → Nat → Byte → Memory
  | [], a, v => [(a, v)]
  | c :: m, a, v => if a < c.1 then (a, v) :: c :: m else c :: Memory.place m a v

/-- One byte written, in the canonical form: a byte equal to the reset content is not listed. -/
def Memory.write (m : Memory) (a : Nat) (v : Byte) : Memory :=
  if v = Memory.unlisted a then m.unlist a else Memory.place (m.unlist a) a v

/-- The canonical form: addresses strictly rising and inside 0x000..0xFFF (10_state.md R32), no listing equal to the
reset content. -/
def Memory.wf : Memory → Bool
  | [] => true
  | c :: m =>
    decide (c.1 < Config.memorySize) && (c.2 != Memory.unlisted c.1) && m.all (fun d => decide (c.1 < d.1)) &&
      Memory.wf m

/-- `MemRead(a, 1)`: the byte, or the failing address when `a > 0xFFF` (20_memory.md R51). -/
def memRead (m : Memory) (a : Nat) : Except Nat Byte :=
  if a > 0xFFF then .error a else .ok (m.read a)

/-- `MemWrite(a, 1, v)`: the memory after it, or the failing address when `a > 0xFFF` (20_memory.md R52). -/
def memWrite (m : Memory) (a : Nat) (v : Byte) : Except Nat Memory :=
  if a > 0xFFF then .error a else .ok (m.write a v)

/-- The `n` bytes from `a` on, ascending, or the lowest failing address (20_memory.md R57, R58). -/
def readBytes (m : Memory) (a : Nat) : Nat → Except Nat (List Byte)
  | 0 => .ok []
  | n + 1 =>
    match memRead m a, readBytes m (a + 1) n with
    | .error e, _ => .error e
    | .ok _, .error e => .error e
    | .ok b, .ok bs => .ok (b :: bs)

/-- The bytes stored from `a` on, ascending, or the lowest failing address and then no memory at all, so that
nothing is stored (20_memory.md R57, R58). -/
def writeBytes (m : Memory) (a : Nat) : List Byte → Except Nat Memory
  | [] => .ok m
  | b :: bs =>
    match memWrite m a b with
    | .error e => .error e
    | .ok m' => writeBytes m' (a + 1) bs

/-! ### Registers (10_state.md R20 to R24) -/

/-- `V[x]`. -/
def State.reg (s : State) (x : RegName) : Byte := s.V[x.toNat]'x.isLt

/-- `V[x] <- v`. -/
def State.setReg (s : State) (x : RegName) (v : Byte) : State := { s with V := s.V.set x.toNat v x.isLt }

/-- `V[0xF] <- flag` (R21). -/
def State.setFlag (s : State) (flag : Byte) : State := s.setReg 0xF flag

/-- A flag and a result written, the flag first: with `x = 0xF` the result stays (42_alu.md R131). -/
def State.setFlagThenReg (s : State) (flag : Byte) (x : RegName) (result : Byte) : State :=
  (s.setFlag flag).setReg x result

/-- `V[k], V[k+1], ...` for the bytes given, in that order (43_index_memory.md R165). -/
def State.setRegsFrom (s : State) (k : Nat) : List Byte → State
  | [] => s
  | v :: vs => State.setRegsFrom (s.setReg (BitVec.ofNat 4 k) v) (k + 1) vs

/-- The values of `V[0]`..`V[x]`, in that order (43_index_memory.md R164). -/
def State.regsUpTo (s : State) (x : RegName) : List Byte :=
  (List.range (x.toNat + 1)).map fun k => s.reg (BitVec.ofNat 4 k)

/-- `I <- a`. -/
def State.setI (s : State) (a : Addr) : State := { s with I := a }

/-- `delayTimer <- v`. -/
def State.setDelay (s : State) (v : Byte) : State := { s with delayTimer := v }

/-- `soundTimer <- v`. -/
def State.setSound (s : State) (v : Byte) : State := { s with soundTimer := v }

/-- `isDrawing <- b`. -/
def State.setDrawing (s : State) (b : Bool) : State := { s with isDrawing := b }

/-- The framebuffer replaced. -/
def State.setScreen (s : State) (scr : Screen) : State := { s with screen := scr }

/-- Memory replaced. -/
def State.setMem (s : State) (m : Memory) : State := { s with mem := m }

/-- `keys[k] <- pressed`, a host move (60_exceptions.md R233). -/
def State.setKey (s : State) (k : Fin 16) (pressed : Bool) : State :=
  { s with keys := s.keys.set k.val pressed k.isLt }

/-! ### The program counter (10_state.md R22, R23); every value wraps modulo 4096 -/

/-- `pc <- target`. -/
def State.setPc (s : State) (target : Addr) : State := { s with pc := target }

/-- The cycle's `pc <- (pc + 2) mod 4096` before execution (40_fetch_execute.md R92). -/
def State.preIncrement (s : State) : State := s.setPc (s.pc + 2)

/-- `Skip()`: `pc <- (pc + 2) mod 4096` (41_control_flow.md R100). -/
def State.skip (s : State) : State := s.setPc (s.pc + 2)

/-- `Skip()` when the condition holds. -/
def State.skipIf (s : State) (c : Bool) : State := if c then s.skip else s

/-- FX0A's retry: `pc <- (pc - 2) mod 4096` (45_timers_input.md R204). -/
def State.retry (s : State) : State := s.setPc (s.pc - 2)

/-- `A`, the address of the instruction in execution: `pc` holds `A + 2`, mod 4096 (40_fetch_execute.md R92;
log 18). -/
def State.instrAddr (s : State) : Addr := s.pc - 2

/-! ### The return stack (10_state.md R25, R26) -/

/-- `stack[sp] <- pc; sp <- sp + 1`, or nothing when `sp == 16` (41_control_flow.md R103). -/
def State.pushPc (s : State) : Option State :=
  if h : s.sp.val < 16 then
    some { s with stack := s.stack.set s.sp.val s.pc h, sp := ⟨s.sp.val + 1, by omega⟩ }
  else none

/-- `sp <- sp - 1; pc <- stack[sp]`, or nothing when `sp == 0`; the entry is left in place (41_control_flow.md
R101). -/
def State.popPc (s : State) : Option State :=
  if h : 0 < s.sp.val then
    some { s with pc := s.stack[s.sp.val - 1]'(by omega), sp := ⟨s.sp.val - 1, by omega⟩ }
  else none

/-! ### The screen (44_graphics.md R180): every coordinate is reduced before a pixel is read or written -/

/-- `screen[x mod 64][y mod 32]`. -/
def Screen.pixel (scr : Screen) (x y : Nat) : Bool :=
  (scr[x % 64]'(Nat.mod_lt _ (by decide)))[y % 32]'(Nat.mod_lt _ (by decide))

/-- `screen[x mod 64][y mod 32] <- b`. -/
def Screen.setPixel (scr : Screen) (x y : Nat) (b : Bool) : Screen :=
  scr.set (x % 64)
    ((scr[x % 64]'(Nat.mod_lt _ (by decide))).set (y % 32) b (Nat.mod_lt _ (by decide)))
    (Nat.mod_lt _ (by decide))

/-- Every pixel off. -/
def Screen.blank : Screen := Vector.replicate 64 (Vector.replicate 32 false)

/-! ### The random input (42_alu.md R143, 60_exceptions.md R234): one byte for one cycle -/

/-- The byte on the `rnd` input for the cycle to come; one presented before for the same cycle is replaced
(40_fetch_execute.md R95). -/
def State.presentRnd (s : State) (r : Byte) : State := { s with rnd := some r }

/-- The end of a cycle for the `rnd` input: its byte belonged to that cycle, drawn or not (10_state.md R35,
60_exceptions.md R235). -/
def State.dropRnd (s : State) : State := { s with rnd := none }

/-- `Rnd()`: the byte on the `rnd` input for this cycle; where the state names none, a free value (log 4). -/
def State.takeRnd (s : State) : Byte × State :=
  match s.rnd with
  | some r => (r, s)
  | none => (Config.freeRnd s.rndDraws, { s with rndDraws := s.rndDraws + 1 })

/-! ### Raising a fault (60_exceptions.md R222, R224) -/

/-- `raise Fault(kind, info)` in the execute phase: the whole cycle is rejected, and `info` carries the
instruction's address and its word. -/
def State.raise (s : State) (kind : Addr → Word → Fault) (i : Instr) : Host.Outcome State Fault Refusal :=
  .fault (kind s.instrAddr (encode i))

/-- `raise Fault(OutOfRangeAccess, {pc, opcode, addr})`. -/
def State.raiseOutOfRange (s : State) (addr : Nat) (i : Instr) : Host.Outcome State Fault Refusal :=
  s.raise (fun pc oc => .outOfRangeAccess pc (some oc) addr) i

end Sys2Proof.Machine
end

