-- ==== Sys2Proof/Machine/Flags.lean ====
section
/-! DEFINITION. The values VF takes (10_state.md R21), each computed on exact integers (42_alu.md R130). -/

namespace Sys2Proof.Machine

/-- `(c ? 1 : 0)`. -/
def flagOf (c : Bool) : Byte := if c then 1 else 0

/-- The carry of 8XY4: `vx + vy > 255` (42_alu.md R138). -/
def carryFlag (vx vy : Byte) : Byte := flagOf (decide (vx.toNat + vy.toNat > 255))

/-- The flag of 8XY5 and 8XY7: minuend strictly greater than subtrahend (42_alu.md R139, R141; 90_conflicts.md
C1). -/
def greaterFlag (minuend subtrahend : Byte) : Byte := flagOf (decide (minuend.toNat > subtrahend.toNat))

/-- The flag of 8XY6: the bit shifted out, bit 0 (42_alu.md R140). -/
def shiftedOutFlag (vx : Byte) : Byte := vx &&& 1

/-- The flag of 8XYE: `vx & 0xF0`, not a 0/1 flag (42_alu.md R142; log 20). -/
def highNibbleFlag (vx : Byte) : Byte := vx &&& 0xF0

/-- The flag of FX1E: `I + V[X] > 0xFFF` (43_index_memory.md R161). -/
def indexOverflowFlag (i : Addr) (v : Byte) : Byte := flagOf (decide (i.toNat + v.toNat > 0xFFF))

/-- The flag of DXYN: whether any pixel went from on to off (44_graphics.md R184). -/
def collisionFlag (hit : Bool) : Byte := flagOf hit

end Sys2Proof.Machine
end

