-- ==== Sys2Proof/Machine/Operands.lean ====
section
/-! DEFINITION. The operand forms that are more than a field or a register: zero extension, the computed
addresses, the keys, the BCD digits, the sprite. -/

namespace Sys2Proof.Machine

/-- `zext_12` of a byte, the only extension in use (00_scope.md R7). -/
def zextAddr (v : Byte) : Addr := v.setWidth 12

/-- `(NNN + V[0]) mod 4096` (41_control_flow.md R108). -/
def jumpTarget (nnn : Addr) (v0 : Byte) : Addr := nnn + zextAddr v0

/-- `(I + v) mod 4096` (43_index_memory.md R161). -/
def indexPlus (i : Addr) (v : Byte) : Addr := i + zextAddr v

/-- `(V[X] * 5) mod 4096`, the glyph's address, with no masking (43_index_memory.md R162). -/
def glyphAddr (v : Byte) : Addr := zextAddr v * 5

/-- `(I + X + 1) mod 4096`, where FX55 and FX65 leave `I` (43_index_memory.md R164, R165). -/
def indexAfterBulk (i : Addr) (x : RegName) : Addr := i + x.setWidth 12 + 1

/-- Hundreds, tens and units of a byte (43_index_memory.md R163). -/
def bcdDigits (v : Byte) : List Byte :=
  [BitVec.ofNat 8 (v.toNat / 100), BitVec.ofNat 8 (v.toNat / 10 % 10), BitVec.ofNat 8 (v.toNat % 10)]

/-- `KeyPressed(k)`: `keys[k]` for `k <= 15`, not pressed beyond (45_timers_input.md R200; log 12). -/
def State.keyPressed (s : State) (k : Byte) : Bool :=
  if h : k.toNat < 16 then s.keys[k.toNat]'h else false

/-- The lowest index, counted from `k`, of a pressed key in a list of keys. -/
def firstPressed : List Bool → Nat → Option Nat
  | [], _ => none
  | b :: bs, k => if b then some k else firstPressed bs (k + 1)

/-- `min { i in [0, 16) | keys[i] }`, or nothing when no key is pressed (45_timers_input.md R204). -/
def State.lowestKey (s : State) : Option Byte :=
  (firstPressed s.keys.toList 0).map (BitVec.ofNat 8)

/-! ### The sprite (44_graphics.md R182, R183) -/

/-- Bit `7 - b` of a sprite row: `b = 0` is the most significant bit (R183). -/
def spriteBit (row : Byte) (b : Nat) : Bool := row.getLsbD (7 - b)

/-- A pixel toggled, and the collision flag set if it was on (R182). -/
def togglePixel (x y : Nat) (acc : Screen × Bool) : Screen × Bool :=
  (acc.1.setPixel x y (!acc.1.pixel x y), acc.2 || acc.1.pixel x y)

/-- The inner loop: the columns of one sprite row, in the order of the list. -/
def drawColumns (vx y : Nat) (row : Byte) : List Nat → Screen × Bool → Screen × Bool
  | [], acc => acc
  | b :: bs, acc =>
    drawColumns vx y row bs (if spriteBit row b then togglePixel (vx + b) y acc else acc)

/-- The outer loop: the sprite's rows from row number `r` on. -/
def drawRows (vx vy : Nat) : List Byte → Nat → Screen × Bool → Screen × Bool
  | [], _, acc => acc
  | row :: rows, r, acc =>
    drawRows vx vy rows (r + 1) (drawColumns vx (vy + r) row [0, 1, 2, 3, 4, 5, 6, 7] acc)

/-- The screen after a draw and whether any pixel went from on to off (R182, R184). -/
def drawSprite (scr : Screen) (vx vy : Byte) (rows : List Byte) : Screen × Bool :=
  drawRows vx.toNat vy.toNat rows 0 (scr, false)

end Sys2Proof.Machine
end

