-- ==== Sys2Proof/Machine/Alu.lean ====
section
/-! DEFINITION. The ALU and register-file instructions (42_alu.md). In each, `vx` and `vy` are read before any
write and a flag is written before the result (R131); none of them faults or touches `pc` or memory. -/

namespace Sys2Proof.Machine

/-- `6XNN`: `V[X] <- NN` (R132). -/
def execLdImm (x : RegName) (nn : Byte) (s : State) : Host.Outcome State Fault Refusal :=
  .next (s.setReg x nn)

/-- `7XNN`: `V[X] <- (V[X] + NN) mod 256`, no flag (R133). -/
def execAddImm (x : RegName) (nn : Byte) (s : State) : Host.Outcome State Fault Refusal :=
  .next (s.setReg x (s.reg x + nn))

/-- `8XY0`: `V[X] <- vy` (R134). -/
def execLdReg (x y : RegName) (s : State) : Host.Outcome State Fault Refusal :=
  .next (s.setReg x (s.reg y))

/-- `8XY1`: `V[X] <- vx | vy` (R135). -/
def execOrReg (x y : RegName) (s : State) : Host.Outcome State Fault Refusal :=
  .next (s.setReg x (s.reg x ||| s.reg y))

/-- `8XY2`: `V[X] <- vx & vy` (R136). -/
def execAndReg (x y : RegName) (s : State) : Host.Outcome State Fault Refusal :=
  .next (s.setReg x (s.reg x &&& s.reg y))

/-- `8XY3`: `V[X] <- vx ^ vy` (R137). -/
def execXorReg (x y : RegName) (s : State) : Host.Outcome State Fault Refusal :=
  .next (s.setReg x (s.reg x ^^^ s.reg y))

/-- `8XY4`: VF is the carry, `V[X] <- (vx + vy) mod 256` (R138). -/
def execAddReg (x y : RegName) (s : State) : Host.Outcome State Fault Refusal :=
  .next (s.setFlagThenReg (carryFlag (s.reg x) (s.reg y)) x (s.reg x + s.reg y))

/-- `8XY5`: VF is `vx > vy`, `V[X] <- (vx - vy) mod 256` (R139). -/
def execSubReg (x y : RegName) (s : State) : Host.Outcome State Fault Refusal :=
  .next (s.setFlagThenReg (greaterFlag (s.reg x) (s.reg y)) x (s.reg x - s.reg y))

/-- `8XY6`: VF is bit 0 of `vx`, `V[X] <- vx >> 1`; Y does not matter (R140). -/
def execShr (x _y : RegName) (s : State) : Host.Outcome State Fault Refusal :=
  .next (s.setFlagThenReg (shiftedOutFlag (s.reg x)) x (s.reg x >>> 1))

/-- `8XY7`: VF is `vy > vx`, `V[X] <- (vy - vx) mod 256` (R141). -/
def execSubn (x y : RegName) (s : State) : Host.Outcome State Fault Refusal :=
  .next (s.setFlagThenReg (greaterFlag (s.reg y) (s.reg x)) x (s.reg y - s.reg x))

/-- `8XYE`: VF is `vx & 0xF0`, `V[X] <- (vx << 1) mod 256`; Y does not matter (R142). -/
def execShl (x _y : RegName) (s : State) : Host.Outcome State Fault Refusal :=
  .next (s.setFlagThenReg (highNibbleFlag (s.reg x)) x (s.reg x <<< 1))

/-- `CXNN`: `V[X] <- Rnd() & NN` (R143). -/
def execRnd (x : RegName) (nn : Byte) (s : State) : Host.Outcome State Fault Refusal :=
  .next (s.takeRnd.2.setReg x (s.takeRnd.1 &&& nn))

end Sys2Proof.Machine
end

