-- ==== Sys2Proof/Machine/ControlFlow.lean ====
section
/-! DEFINITION. Jumps, calls, returns and skips (41_control_flow.md). `pc` holds the instruction's address plus 2
when a meaning starts (40_fetch_execute.md R92). -/

namespace Sys2Proof.Machine

/-- `00EE`: `sp <- sp - 1; pc <- stack[sp]`, or StackUnderflow when `sp == 0` (R101). -/
def execRet (u : Nibble) (s : State) : Host.Outcome State Fault Refusal :=
  match s.popPc with
  | some t => .next t
  | none => s.raise .stackUnderflow (.ret u)

/-- `1NNN`: `pc <- NNN` (R102). -/
def execJp (nnn : Addr) (s : State) : Host.Outcome State Fault Refusal :=
  .next (s.setPc nnn)

/-- `2NNN`: `stack[sp] <- pc; sp <- sp + 1; pc <- NNN`, or StackOverflow when `sp == 16` (R103). -/
def execCall (nnn : Addr) (s : State) : Host.Outcome State Fault Refusal :=
  match s.pushPc with
  | some t => .next (t.setPc nnn)
  | none => s.raise .stackOverflow (.call nnn)

/-- `3XNN`: skip if `V[X] == NN` (R104). -/
def execSeImm (x : RegName) (nn : Byte) (s : State) : Host.Outcome State Fault Refusal :=
  .next (s.skipIf (s.reg x == nn))

/-- `4XNN`: skip if `V[X] != NN` (R105). -/
def execSneImm (x : RegName) (nn : Byte) (s : State) : Host.Outcome State Fault Refusal :=
  .next (s.skipIf (s.reg x != nn))

/-- `5XY0`: skip if `V[X] == V[Y]` (R106). -/
def execSeReg (x y : RegName) (s : State) : Host.Outcome State Fault Refusal :=
  .next (s.skipIf (s.reg x == s.reg y))

/-- `9XY0`: skip if `V[X] != V[Y]` (R107). -/
def execSneReg (x y : RegName) (s : State) : Host.Outcome State Fault Refusal :=
  .next (s.skipIf (s.reg x != s.reg y))

/-- `BNNN`: `pc <- (NNN + V[0]) mod 4096` (R108). -/
def execJpV0 (nnn : Addr) (s : State) : Host.Outcome State Fault Refusal :=
  .next (s.setPc (jumpTarget nnn (s.reg 0)))

end Sys2Proof.Machine
end

