-- ==== Sys2Proof/Machine/Graphics.lean ====
section
/-! DEFINITION. The screen instructions (44_graphics.md). -/

namespace Sys2Proof.Machine

/-- `00E0`: every pixel off; VF and `isDrawing` unchanged (R181; log 13). -/
def execCls (s : State) : Host.Outcome State Fault Refusal :=
  .next (s.setScreen Screen.blank)

/-- `DXYN`: the sprite's N rows at `I` drawn by XOR at `(V[X], V[Y])`, VF the collision flag, `isDrawing` set, or
OutOfRangeAccess before anything is drawn (R182 to R185). The origin is read before VF is written. -/
def execDrw (x y : RegName) (n : Nibble) (s : State) : Host.Outcome State Fault Refusal :=
  match readBytes s.mem s.I.toNat n.toNat with
  | .ok rows =>
    let drawn := drawSprite s.screen (s.reg x) (s.reg y) rows
    .next (((s.setFlag (collisionFlag drawn.2)).setScreen drawn.1).setDrawing true)
  | .error a => s.raiseOutOfRange a (.drw x y n)

end Sys2Proof.Machine
end

