-- ==== Sys2Proof/Machine/IndexMemory.lean ====
section
/-! DEFINITION. The index register and memory instructions (43_index_memory.md). A run of bytes is
all-or-nothing (20_memory.md R58). -/

namespace Sys2Proof.Machine

/-- `ANNN`: `I <- NNN` (R160). -/
def execLdI (nnn : Addr) (s : State) : Host.Outcome State Fault Refusal :=
  .next (s.setI nnn)

/-- `FX1E`: VF is `I + V[X] > 0xFFF`, then `I <- (I + V[X]) mod 4096` with `V[X]` read again, so that with X = 0xF
the addend is the new flag (R161; log 11). -/
def execAddI (x : RegName) (s : State) : Host.Outcome State Fault Refusal :=
  let t := s.setFlag (indexOverflowFlag s.I (s.reg x))
  .next (t.setI (indexPlus t.I (t.reg x)))

/-- `FX29`: `I <- (V[X] * 5) mod 4096` (R162). -/
def execLdF (x : RegName) (s : State) : Host.Outcome State Fault Refusal :=
  .next (s.setI (glyphAddr (s.reg x)))

/-- `FX33`: the BCD digits of `V[X]` to `I`, `I + 1`, `I + 2`, or OutOfRangeAccess (R163). -/
def execLdB (x : RegName) (s : State) : Host.Outcome State Fault Refusal :=
  match writeBytes s.mem s.I.toNat (bcdDigits (s.reg x)) with
  | .ok m => .next (s.setMem m)
  | .error a => s.raiseOutOfRange a (.ldB x)

/-- `FX55`: `V[0]`..`V[X]` to memory from `I` on, then `I <- (I + X + 1) mod 4096`, or OutOfRangeAccess (R164). -/
def execStRegs (x : RegName) (s : State) : Host.Outcome State Fault Refusal :=
  match writeBytes s.mem s.I.toNat (s.regsUpTo x) with
  | .ok m => .next ((s.setMem m).setI (indexAfterBulk s.I x))
  | .error a => s.raiseOutOfRange a (.stRegs x)

/-- `FX65`: `V[0]`..`V[X]` from memory from `I` on, then `I <- (I + X + 1) mod 4096`, or OutOfRangeAccess (R165). -/
def execLdRegs (x : RegName) (s : State) : Host.Outcome State Fault Refusal :=
  match readBytes s.mem s.I.toNat (x.toNat + 1) with
  | .ok bs => .next ((s.setRegsFrom 0 bs).setI (indexAfterBulk s.I x))
  | .error a => s.raiseOutOfRange a (.ldRegs x)

end Sys2Proof.Machine
end

