-- ==== Sys2Proof/Machine/TimersInput.lean ====
section
/-! DEFINITION. The key and timer instructions (45_timers_input.md). -/

namespace Sys2Proof.Machine

/-- `EX9E`: skip if `KeyPressed(V[X])` (R201, R200). -/
def execSkp (x : RegName) (s : State) : Host.Outcome State Fault Refusal :=
  .next (s.skipIf (s.keyPressed (s.reg x)))

/-- `EXA1`: skip if not `KeyPressed(V[X])` (R202, R200). -/
def execSknp (x : RegName) (s : State) : Host.Outcome State Fault Refusal :=
  .next (s.skipIf (!s.keyPressed (s.reg x)))

/-- `FX07`: `V[X] <- delayTimer` (R203). -/
def execLdVxDt (x : RegName) (s : State) : Host.Outcome State Fault Refusal :=
  .next (s.setReg x s.delayTimer)

/-- `FX0A`: `V[X] <- k` for the lowest pressed key `k`; with none pressed, the retry `pc <- (pc - 2) mod 4096`
(R204; log 19). -/
def execLdVxK (x : RegName) (s : State) : Host.Outcome State Fault Refusal :=
  match s.lowestKey with
  | some k => .next (s.setReg x k)
  | none => .next s.retry

/-- `FX15`: `delayTimer <- V[X]` (R206). -/
def execLdDtVx (x : RegName) (s : State) : Host.Outcome State Fault Refusal :=
  .next (s.setDelay (s.reg x))

/-- `FX18`: `soundTimer <- V[X]` (R207). -/
def execLdStVx (x : RegName) (s : State) : Host.Outcome State Fault Refusal :=
  .next (s.setSound (s.reg x))

end Sys2Proof.Machine
end

