-- ==== Sys2Proof/Machine/Cycle.lean ====
section
/-! DEFINITION. The fetch-decode-execute cycle and its outcome (40_fetch_execute.md R90 to R95, 60_exceptions.md
R221 to R226). -/

namespace Sys2Proof.Machine

/-- The fetch (R91): `memory[pc]`, then `memory[pc + 1]` with the byte address not wrapped, combined big-endian
(20_memory.md R54); or the failing address, which happens at `pc = 0xFFF` only. -/
def State.fetchWord (s : State) : Except Nat Word :=
  match memRead s.mem s.pc.toNat with
  | .error a => .error a
  | .ok hi =>
    match memRead s.mem (s.pc.toNat + 1) with
    | .error a => .error a
    | .ok lo => .ok (wordOfBytes hi lo)

/-- `Diag(UnknownOpcode, {pc, opcode})` (R226), the one diagnostic there is. -/
structure Diag where
  pc : Addr
  opcode : Word
deriving DecidableEq, Repr

/-- Diagnostic code 0 (R226). -/
def Diag.code (_d : Diag) : Nat := 0

/-- The fault codes of R221. -/
def Fault.code : Fault → Nat
  | .stackOverflow _ _ => 1
  | .stackUnderflow _ _ => 2
  | .outOfRangeAccess _ _ _ => 3
  | .unknownOpcode _ _ => 4
  | .programTooLarge _ => 5

/-- What the `outcome` port reports for the cycle just run (R94). -/
inductive CycleOutcome where
  | ok
  | diag (d : Diag)
  | fault (f : Fault)
deriving DecidableEq, Repr

/-- How a cycle ends (R94): with a state, with a state and a diagnostic, or rejected whole by a fault. The last
case stands for an instruction without a meaning; no cycle ends so. -/
inductive CycleResult where
  | ok (t : State)
  | diag (d : Diag) (t : State)
  | fault (f : Fault)
  | refused (r : Refusal)
deriving DecidableEq, Repr

/-- The end of a cycle that goes on: nothing is left of its `rnd` byte (10_state.md R33, R35). -/
def endCycle : Host.Outcome State Fault Refusal → Host.Outcome State Fault Refusal
  | .next t => .next t.dropRnd
  | .fault f => .fault f
  | .refused r => .refused r

/-- The execute phase's ending, as the cycle's. -/
def CycleResult.ofExec : Host.Outcome State Fault Refusal → CycleResult
  | .next t => .ok t
  | .fault f => .fault f
  | .refused r => .refused r

/-- The cycle's ending, in the host's three outcomes: a diagnostic is not fatal, the machine goes on. -/
def CycleResult.toHost : CycleResult → Host.Outcome State Fault Refusal
  | .ok t => .next t
  | .diag _ t => .next t
  | .fault f => .fault f
  | .refused r => .refused r

/-- The state after a cycle that started in `s`: after a fault, `s` itself (R94, R222). -/
def CycleResult.stateAfter (s : State) : CycleResult → State
  | .ok t => t
  | .diag _ t => t
  | .fault _ => s
  | .refused _ => s

/-- An unrecognized word (R226): under `continue` the pre-increment stands and a diagnostic is reported, under
`fault` the cycle faults (log 3). -/
def unrecognizedWord (policy : UnknownOpcodePolicy) (oc : Word) (s : State) : CycleResult :=
  match policy with
  | .continue => .diag ⟨s.pc, oc⟩ s.preIncrement.dropRnd
  | .fault => .fault (.unknownOpcode s.pc oc)

/-- One cycle (R90): fetch, pre-increment, decode, execute; the checks come in the order of R225. -/
def cycle (policy : UnknownOpcodePolicy) (s : State) : CycleResult :=
  match s.fetchWord with
  | .error a => .fault (.outOfRangeAccess s.pc none a)
  | .ok oc =>
    match decode oc with
    | .ok i => .ofExec (endCycle (exec i s.preIncrement))
    | .error _ => unrecognizedWord policy oc s

/-- One cycle with a byte on its `rnd` input (10_state.md R33, 40_fetch_execute.md R95, 60_exceptions.md R234). -/
def cycleWith (policy : UnknownOpcodePolicy) (r : Byte) (s : State) : CycleResult := cycle policy (s.presentRnd r)

end Sys2Proof.Machine
end

