-- ==== Sys2Proof/WellFormed.lean ====
section
/-! DEFINITION. The checks on what is given to the machine: an instruction, a program, a font table. -/

namespace Sys2Proof

/-- Every term of `Instr` is a well-formed instruction: each operand's type is exactly as wide as its field
(30_encoding.md R71), every value of a field is legal (R72; N = 0 in DXYN, 44_graphics.md R182), and there are no
reserved forms of an instruction (R78). So nothing is checked here; each constructor is named so that a new
one has to be considered. -/
def Instr.wellFormed : Instr → Bool
  | .cls _ => true
  | .ret _ => true
  | .jp _ => true
  | .call _ => true
  | .seImm _ _ => true
  | .sneImm _ _ => true
  | .seReg _ _ _ => true
  | .ldImm _ _ => true
  | .addImm _ _ => true
  | .ldReg _ _ => true
  | .orReg _ _ => true
  | .andReg _ _ => true
  | .xorReg _ _ => true
  | .addReg _ _ => true
  | .subReg _ _ => true
  | .shr _ _ => true
  | .subn _ _ => true
  | .shl _ _ => true
  | .sneReg _ _ _ => true
  | .ldI _ => true
  | .jpV0 _ => true
  | .rnd _ _ => true
  | .drw _ _ _ => true
  | .skp _ => true
  | .sknp _ => true
  | .ldVxDt _ => true
  | .ldVxK _ => true
  | .ldDtVx _ => true
  | .ldStVx _ => true
  | .addI _ => true
  | .ldF _ => true
  | .ldB _ => true
  | .stRegs _ => true
  | .ldRegs _ => true

/-- The canonical spelling of an instruction is its pattern with the fields filled in (30_encoding.md R79), so
the digit that the pattern fixes and the decoder does not check is 0. The machine runs the others as well (R73,
R74): this is a check on a program's text, never on what the core executes. -/
def Instr.canonical : Instr → Bool
  | .cls u => u == 0
  | .ret u => u == 0
  | .seReg _ _ u => u == 0
  | .sneReg _ _ u => u == 0
  | i => i.wellFormed

/-- A program fits in 0x200..0xFFF: length at most 3584 (70_reset_and_hazards.md R263). -/
def programFits (bytes : List Byte) : Bool := decide (bytes.length ≤ Config.maxProgramLength)

/-- A value of the parameter `FONT`: 80 bytes, the first of them 0xF0 (00_scope.md R6). -/
def fontWellFormed (font : List Byte) : Bool :=
  font.length == Config.fontSize && font.head? == some 0xF0

end Sys2Proof
end

