-- ==== Sys2Proof/Machine/Ports.lean ====
section
/-! DEFINITION. The host's inputs and outputs between cycles (10_state.md R35, 60_exceptions.md R230 to R235,
44_graphics.md R187, 70_reset_and_hazards.md R260 to R263). -/

namespace Sys2Proof.Machine

/-- Bytes put into memory from an address on. The callers' addresses lie in 0x000..0xFFF. -/
def Memory.writeAll (m : Memory) (a : Nat) : List Byte → Memory
  | [] => m
  | b :: bs => Memory.writeAll (m.write a b) (a + 1) bs

/-- `reset` of a machine whose parameter `FONT` is the one given: `memory[j] <- FONT[j]` for j in [0, 80), every
other element at its reset value (R260, R261; log 2). -/
def State.resetWithFont (font : List Byte) : State :=
  State.reset.setMem (Memory.writeAll State.reset.mem 0 (font.take Config.fontSize))

/-- `load(bytes)`: the bytes from 0x200 on, nothing else changed; with more than 3584 of them no byte is written
(R262, R263). -/
def State.load (bytes : List Byte) (s : State) : Except Fault State :=
  if programFits bytes then .ok (s.setMem (Memory.writeAll s.mem Config.programBase bytes))
  else .error (.programTooLarge bytes.length)

/-- A nonzero timer goes down by 1, a timer at 0 stays (R230). -/
def tickTimer (v : Byte) : Byte := if v = 0 then 0 else v - 1

/-- `tick`: both timers (R230). -/
def State.tick (s : State) : State :=
  (s.setDelay (tickTimer s.delayTimer)).setSound (tickTimer s.soundTimer)

/-- `ackDraw`: `isDrawing <- false` (R187). -/
def State.ackDraw (s : State) : State := s.setDrawing false

/-- `soundActive = (soundTimer != 0)` (R232). -/
def State.soundActive (s : State) : Bool := s.soundTimer != 0

/-- `drawPending = isDrawing` (R187). -/
def State.drawPending (s : State) : Bool := s.isDrawing

/-- `fb_out[x][y]` (R187). -/
def State.fbOut (s : State) (x : Fin 64) (y : Fin 32) : Bool := s.screen.pixel x.val y.val

end Sys2Proof.Machine
end

