-- ==== Sys2Proof/Machine/Session.lean ====
section
/-! DEFINITION. The block with its host: which move the host may make when, and the `outcome` port
(60_exceptions.md R223, R235; 70_reset_and_hazards.md R260, R262, R264). The interleaving of moves is the host's
(10_state.md R36). -/

namespace Sys2Proof.Machine

/-- Where the host stands in the protocol of R235 and R264. -/
inductive Phase where
  /-- After `reset`, no program loaded, no cycle run. -/
  | fresh
  /-- A program loaded, no cycle run. -/
  | loaded
  /-- The first cycle has been run. -/
  | running
  /-- The last cycle, or the load, reported this fault: the run is over (R223). -/
  | faulted (f : Fault)
deriving DecidableEq, Repr

/-- The block between two moves of the host. -/
structure Session where
  state : State
  phase : Phase
  /-- The `outcome` port: no value until the first cycle (R260), then that of the cycle just run (R35). -/
  outcome : Option CycleOutcome
deriving DecidableEq, Repr

/-- What the host can do (R35, R235). -/
inductive PortMove where
  | reset
  | load (bytes : List Byte)
  | keysIn (k : Fin 16) (pressed : Bool)
  | tick
  | ackDraw
  /-- A cycle, with the one byte that the host has to present on `rnd` for it (R234, R235). -/
  | cycle (rnd : Byte)
deriving DecidableEq, Repr

/-- The block right after `reset`, for a value of the parameter `FONT` (R260). -/
def Session.afterReset (font : List Byte) : Session := ⟨State.resetWithFont font, .fresh, none⟩

/-- The load move: once, before the first cycle; a load that is too long ends the run (R262, R263, R235). -/
def Session.load (bytes : List Byte) (w : Session) : Option Session :=
  if w.phase = .fresh then
    match w.state.load bytes with
    | .ok t => some { w with state := t, phase := .loaded }
    | .error f => some { w with phase := .faulted f }
  else none

/-- The cycle move on a block that is not faulted: the state after, and the outcome (R94). -/
def Session.runCycle (policy : UnknownOpcodePolicy) (r : Byte) (w : Session) : Option Session :=
  match cycleWith policy r w.state with
  | .ok t => some ⟨t, .running, some .ok⟩
  | .diag d t => some ⟨t, .running, some (.diag d)⟩
  | .fault f => some ⟨w.state, .faulted f, some (.fault f)⟩
  | .refused _ => none

/-- One move of the host, or nothing where R235 says the host must not make it. -/
def Session.move (font : List Byte) (policy : UnknownOpcodePolicy) (w : Session) : PortMove → Option Session
  | .reset => some (Session.afterReset font)
  | .load bytes => w.load bytes
  | .keysIn k pressed => some { w with state := w.state.setKey k pressed }
  | .tick => some { w with state := w.state.tick }
  | .ackDraw => some { w with state := w.state.ackDraw }
  | .cycle r =>
    match w.phase with
    | .fresh => w.runCycle policy r
    | .loaded => w.runCycle policy r
    | .running => w.runCycle policy r
    | .faulted _ => none

end Sys2Proof.Machine
end

