-- ==== Sys2Proof/Machine/Step.lean ====
section
/-! DEFINITION. The machine's step, and a word placed where the next step fetches. -/

namespace Sys2Proof.Machine

/-- One `cycle` request (40_fetch_execute.md R90) under the default policy (00_scope.md R6). -/
def step (s : State) : Host.Outcome State Fault Refusal :=
  (cycle Config.unknownOpcodePolicy s).toHost

/-- The state with an instruction word at `pc` and `pc + 1`, in memory's byte order, so that the next step runs
it. No word can be fetched at 0xFFF (R91): there `pc` is moved to the entry point first (log 22). -/
def State.withFetchWord (s : State) (nbits w : Nat) : State :=
  let t := if s.pc = 0xFFF then s.setPc 0x200 else s
  t.setMem (Memory.writeAll t.mem t.pc.toNat
    [(bytesOfWord (tableWord nbits w)).1, (bytesOfWord (tableWord nbits w)).2])

end Sys2Proof.Machine
end

