-- ==== Sys2Proof/Safety.lean ====
section
/-! DEFINITION. The terms claims are stated in: the invariant, frames, the ends of a run, the reachable blocks. -/

namespace Sys2Proof.Machine

/-- What holds between any two cycles: memory is in its canonical form, which includes that it has no byte outside
0x000..0xFFF. The other bounds of 10_state.md R32 hold by the types of the fields. -/
def State.Inv (s : State) : Prop := s.mem.wf = true

/-- The elements an instruction may change. `stored` lists the byte addresses it stores to; `stack` stands for `sp`
and the return slots, `random` for the counter of free draws. -/
structure Changes where
  regs : List RegName := []
  pc : Bool := false
  index : Bool := false
  stack : Bool := false
  delay : Bool := false
  sound : Bool := false
  drawing : Bool := false
  screen : Bool := false
  random : Bool := false
  stored : List Nat := []
deriving DecidableEq, Repr

/-- `t` differs from `s` at most in the elements named. No instruction writes `keys` (60_exceptions.md
R233) or the byte on the `rnd` input (R234). -/
structure State.Frame (s t : State) (c : Changes) : Prop where
  regs : ∀ y, y ∉ c.regs → t.reg y = s.reg y
  pc : c.pc = false → t.pc = s.pc
  index : c.index = false → t.I = s.I
  stack : c.stack = false → t.sp = s.sp ∧ t.stack = s.stack
  delay : c.delay = false → t.delayTimer = s.delayTimer
  sound : c.sound = false → t.soundTimer = s.soundTimer
  drawing : c.drawing = false → t.isDrawing = s.isDrawing
  screen : c.screen = false → ∀ x y, t.screen.pixel x y = s.screen.pixel x y
  keys : t.keys = s.keys
  rnd : t.rnd = s.rnd
  random : c.random = false → t.rndDraws = s.rndDraws
  mem : ∀ a, a ∉ c.stored → t.mem.read a = s.mem.read a

/-- `base, base + 1, ..., base + n - 1`. -/
def bytesFrom (base n : Nat) : List Nat := (List.range n).map fun k => base + k

/-- `V[0]`..`V[x]`. -/
def regNamesUpTo (x : RegName) : List RegName := (List.range (x.toNat + 1)).map (BitVec.ofNat 4)

/-- Which elements each instruction may write, from the column "written by" of 10_state.md section 1, with the
addresses of 20_memory.md R57. The state given is the one the instruction runs in. -/
def changesOf (s : State) : Instr → Changes
  | .cls _ => { screen := true }
  | .ret _ => { pc := true, stack := true }
  | .jp _ => { pc := true }
  | .call _ => { pc := true, stack := true }
  | .seImm _ _ => { pc := true }
  | .sneImm _ _ => { pc := true }
  | .seReg _ _ _ => { pc := true }
  | .ldImm x _ => { regs := [x] }
  | .addImm x _ => { regs := [x] }
  | .ldReg x _ => { regs := [x] }
  | .orReg x _ => { regs := [x] }
  | .andReg x _ => { regs := [x] }
  | .xorReg x _ => { regs := [x] }
  | .addReg x _ => { regs := [x, 0xF] }
  | .subReg x _ => { regs := [x, 0xF] }
  | .shr x _ => { regs := [x, 0xF] }
  | .subn x _ => { regs := [x, 0xF] }
  | .shl x _ => { regs := [x, 0xF] }
  | .sneReg _ _ _ => { pc := true }
  | .ldI _ => { index := true }
  | .jpV0 _ => { pc := true }
  | .rnd x _ => { regs := [x], random := true }
  | .drw _ _ _ => { regs := [0xF], drawing := true, screen := true }
  | .skp _ => { pc := true }
  | .sknp _ => { pc := true }
  | .ldVxDt x => { regs := [x] }
  | .ldVxK x => { regs := [x], pc := true }
  | .ldDtVx _ => { delay := true }
  | .ldStVx _ => { sound := true }
  | .addI _ => { regs := [0xF], index := true }
  | .ldF _ => { index := true }
  | .ldB _ => { stored := bytesFrom s.I.toNat 3 }
  | .stRegs x => { index := true, stored := bytesFrom s.I.toNat (x.toNat + 1) }
  | .ldRegs x => { regs := regNamesUpTo x, index := true }

/-- The word at `pc`, where there is one to fetch. -/
def State.NextInstr (s : State) (i : Instr) : Prop := ∃ oc, s.fetchWord = .ok oc ∧ decode oc = .ok i

/-- A state is parked when the word at `pc` is `1NNN` with `NNN == pc` (40_fetch_execute.md R97). -/
def State.Parked (s : State) : Prop := s.NextInstr (.jp s.pc)

/-- FX0A is next and no key is pressed: the core waits (10_state.md R34, 45_timers_input.md R205). -/
def State.WaitsForKey (s : State) : Prop :=
  (∃ x, s.NextInstr (.ldVxK x)) ∧ ∀ k : Fin 16, s.keys[k.val] = false

/-- The blocks some sequence of host moves leads to, from `reset` on (10_state.md R36, 60_exceptions.md R235). -/
inductive Session.Reachable (font : List Byte) (policy : UnknownOpcodePolicy) : Session → Prop where
  | reset : Session.Reachable font policy (Session.afterReset font)
  | move (w w' : Session) (m : PortMove) : Session.Reachable font policy w →
      w.move font policy m = some w' → Session.Reachable font policy w'

end Sys2Proof.Machine
end

