-- ==== Sys2Proof/Certificates/Slice0/Obligations.lean ====
section
/-! DEFINITION. The statements for the provers. In a statement about `exec`, the state is the one of the execute phase:
`pc` already holds the instruction's address plus 2 (40_fetch_execute.md R92). `State.Frame s t c` says that `t`
differs from `s` at most in the elements `c` names. -/

open Sys2Proof Sys2Proof.Machine

/-! ### Encoding -/

/-- Every instruction, with every operand, is read back by the decoder, from its word and from its two bytes with any
bytes after them. -/
def Obligations.DecodeEncodeRoundTrip : Prop :=
  ∀ i : Instr, decode (encode i) = .ok i ∧ ∀ rest, decodeBytes (encodeBytes i ++ rest) = .ok (i, rest)

/-- A recognized word has one meaning: encoding what it decodes to gives the word back. -/
def Obligations.EncodingADecodedWordGivesItBack : Prop :=
  ∀ (oc : Word) (i : Instr), decode oc = .ok i → encode i = oc

/-- The decoder, written by fields (R73, R74), agrees with the masks of the opcode map (R75): a word decodes to an
instruction exactly when a row selects it, to an instruction of that row, and no two rows select one word. -/
def Obligations.DecoderAgreesWithTheOpcodeMap : Prop :=
  (∀ (oc : Word) (row : OpcodeRow), row ∈ opcodeMap → row.selects oc = true →
      ∃ i, decode oc = .ok i ∧ i.row = row) ∧
    (∀ (oc : Word) (i : Instr), decode oc = .ok i → i.row ∈ opcodeMap ∧ i.row.selects oc = true) ∧
    (∀ (oc : Word) (r1 r2 : OpcodeRow), r1 ∈ opcodeMap → r2 ∈ opcodeMap →
      r1.selects oc = true → r2.selects oc = true → r1 = r2)

/-- The unrecognized words are the four sets of R76, and the decoder answers each of them with the word itself
(R77). -/
def Obligations.UnrecognizedWordsAreFourSets : Prop :=
  ∀ oc : Word, decode oc = .error (.unrecognized oc) ↔
    (oc.toNat < 0x1000 ∧ oc.toNat % 256 ≠ 0xE0 ∧ oc.toNat % 256 ≠ 0xEE) ∨
      (oc.toNat / 4096 = 0x8 ∧ oc.toNat % 16 ∈ [0x8, 0x9, 0xA, 0xB, 0xC, 0xD, 0xF]) ∨
      (oc.toNat / 4096 = 0xE ∧ oc.toNat % 256 ≠ 0x9E ∧ oc.toNat % 256 ≠ 0xA1) ∨
      (oc.toNat / 4096 = 0xF ∧
        oc.toNat % 256 ∉ [0x07, 0x0A, 0x15, 0x18, 0x1E, 0x29, 0x33, 0x55, 0x65])

/-- Words written out from the patterns of R75, one or more of each family, decode to what they stand for. -/
def Obligations.WrittenOutWordsDecode : Prop :=
  decode 0x05E0 = .ok (.cls 0x5) ∧ decode 0x00EE = .ok (.ret 0x0) ∧ decode 0x2345 = .ok (.call 0x345) ∧
    decode 0x3A42 = .ok (.seImm 0xA 0x42) ∧ decode 0x9AB7 = .ok (.sneReg 0xA 0xB 0x7) ∧
    decode 0x71FF = .ok (.addImm 0x1 0xFF) ∧ decode 0x8127 = .ok (.subn 0x1 0x2) ∧
    decode 0x812E = .ok (.shl 0x1 0x2) ∧ decode 0xC30F = .ok (.rnd 0x3 0x0F) ∧
    decode 0xA2F0 = .ok (.ldI 0x2F0) ∧ decode 0xF265 = .ok (.ldRegs 0x2) ∧
    decode 0xD125 = .ok (.drw 0x1 0x2 0x5) ∧ decode 0xE2A1 = .ok (.sknp 0x2) ∧
    decode 0xF30A = .ok (.ldVxK 0x3) ∧ decode 0x8128 = .error (.unrecognized 0x8128)

/-- In the groups 1, 2, 3, 4, 5, 6, 7, 9, A, B, C and D the top nibble alone selects, so every word of them is
recognized, and the low nibble of `5XYn` and `9XYn` makes no difference to what the word does (R73); in the groups 0, E
and F the low byte selects with it, in group 8 the low nibble (R74). That group 0 goes by the low byte is the spec's
decision D7 (log 7). -/
def Obligations.TopNibbleAloneSelectsTwelveGroups : Prop :=
  (∀ oc : Word, oc.toNat / 4096 ∉ [0x0, 0x8, 0xE, 0xF] →
      ∃ i, decode oc = .ok i ∧ i.row.mask = 0xF000 ∧ i.row.matchBits.toNat = oc.toNat / 4096 * 4096) ∧
    (∀ (x y n m : Nibble) (s : State),
      exec (.seReg x y n) s = exec (.seReg x y m) s ∧ exec (.sneReg x y n) s = exec (.sneReg x y m) s) ∧
    ∀ oc oc' : Word, oc.toNat / 4096 = oc'.toNat / 4096 →
      (oc.toNat / 4096 ∈ [0x0, 0xE, 0xF] ∧ oc.toNat % 256 = oc'.toNat % 256) ∨
        (oc.toNat / 4096 = 0x8 ∧ oc.toNat % 16 = oc'.toNat % 16) →
      (decode oc).toOption.map Instr.row = (decode oc').toOption.map Instr.row

/-! ### The cycle -/

/-- A step runs the decoded instruction: the two bytes at `pc` and `pc + 1` are combined big-endian (R54), and when the
word decodes to `i`, the step is `exec i` on the state with `pc` increased by 2 modulo 4096, after which the cycle's
`rnd` byte is gone (R90 to R93; that `exec` is given this state is log 18, the form of the `rnd` input log 4). An odd
`pc` is fetched as it is, the spec's decision D5 (log 10). -/
def Obligations.StepRunsTheDecodedInstruction : Prop :=
  ∀ (s : State) (oc : Word), s.pc.toNat + 1 ≤ 0xFFF →
    oc.toNat = (s.mem.read s.pc.toNat).toNat * 256 + (s.mem.read (s.pc.toNat + 1)).toNat →
    s.fetchWord = .ok oc ∧
      ∀ i, decode oc = .ok i →
        step s = endCycle (exec i { s with pc := BitVec.ofNat 12 ((s.pc.toNat + 2) % 4096) })

/-- The fetch faults at 0xFFF, without an opcode, and nowhere else (R91; the spec's decision D4, log 9). -/
def Obligations.FetchFaultsAtTheTopOnly : Prop :=
  ∀ s : State,
    (s.pc = 0xFFF → step s = .fault (.outOfRangeAccess 0xFFF none 0x1000)) ∧
      (s.pc ≠ 0xFFF → ∃ oc, s.fetchWord = .ok oc ∧
        oc.toNat = (s.mem.read s.pc.toNat).toNat * 256 + (s.mem.read (s.pc.toNat + 1)).toNat)

/-- An unrecognized word (R226; the spec's decision D6, log 3): under `continue`, the policy of `step`, only `pc`
moves and a diagnostic with the word and its address is reported; under `fault` the cycle faults. As after every cycle,
no `rnd` byte is left (log 4). -/
def Obligations.UnrecognizedWordOnlyAdvances : Prop :=
  ∀ (s : State) (oc : Word), s.fetchWord = .ok oc → decode oc = .error (.unrecognized oc) →
    step s = .next { s with pc := s.pc + 2, rnd := none } ∧
      cycle .continue s = .diag ⟨s.pc, oc⟩ { s with pc := s.pc + 2, rnd := none } ∧
      cycle .fault s = .fault (.unknownOpcode s.pc oc)

/-- Which steps fault, with which fault and which information, under the default policy (R221, R224, R225; the spec's
decisions D4, D18, D26 and D28, log 9 and log 8): the fetch at 0xFFF, a full stack at 2NNN, an empty one at 00EE, and a
byte past 0xFFF at FX33, FX55, FX65 and DXYN with N > 0. No other condition raises a fault. -/
def Obligations.StepFaultsExactlyThen : Prop :=
  ∀ (s : State) (f : Fault), step s = .fault f ↔
    (s.pc = 0xFFF ∧ f = .outOfRangeAccess 0xFFF none 0x1000) ∨
      ∃ oc i, s.fetchWord = .ok oc ∧ decode oc = .ok i ∧
        (((∃ nnn, i = .call nnn) ∧ s.sp.val = 16 ∧ f = .stackOverflow s.pc oc) ∨
          ((∃ u, i = .ret u) ∧ s.sp.val = 0 ∧ f = .stackUnderflow s.pc oc) ∨
          (((∃ x, i = .ldB x ∧ s.I.toNat + 2 > 0xFFF) ∨
              (∃ x, i = .stRegs x ∧ s.I.toNat + x.toNat > 0xFFF) ∨
              (∃ x, i = .ldRegs x ∧ s.I.toNat + x.toNat > 0xFFF) ∨
              (∃ x y n, i = .drw x y n ∧ n.toNat > 0 ∧ s.I.toNat + n.toNat - 1 > 0xFFF)) ∧
            f = .outOfRangeAccess s.pc (some oc) 0x1000))

/-- A cycle ends in `Ok`, `Diag` or `Fault` under either policy: no instruction is without a meaning, so nothing is
refused (R94; the model's answer to D1, log 1). -/
def Obligations.NoCycleIsRefused : Prop :=
  ∀ (policy : UnknownOpcodePolicy) (s : State) (r : Refusal),
    cycle policy s ≠ .refused r ∧ step s ≠ .refused r

/-- A cycle that faults changes no state; the fault is on the `outcome` port only; the host is not to cycle again, and
a cycle would raise the same fault, whatever byte stands on `rnd` (R222, R223; the spec's decision D3, log 8,
log 17). -/
def Obligations.FaultedCycleChangesNothing : Prop :=
  ∀ (font : List Byte) (policy : UnknownOpcodePolicy) (r : Byte) (w w' : Session) (f : Fault),
    w.move font policy (.cycle r) = some w' → w'.phase = .faulted f →
      w'.state = w.state ∧ w'.outcome = some (.fault f) ∧
        ∀ r', cycleWith policy r' w'.state = .fault f ∧ w'.move font policy (.cycle r') = none

/-- Whether a cycle faults, and with what, depends on `pc`, `sp`, `I` and the fetched word alone: never on the keys,
the random input, the registers or anything else (R223). -/
def Obligations.FaultDependsOnPcSpIndexAndWord : Prop :=
  ∀ (policy : UnknownOpcodePolicy) (s t : State) (f : Fault),
    s.pc = t.pc → s.sp = t.sp → s.I = t.I →
    s.mem.read s.pc.toNat = t.mem.read s.pc.toNat →
    s.mem.read (s.pc.toNat + 1) = t.mem.read (s.pc.toNat + 1) →
    cycle policy s = .fault f → cycle policy t = .fault f

/-! ### Invariants -/

/-- Every step keeps memory in its canonical form, with no byte outside 0x000..0xFFF. -/
def Obligations.StepKeepsTheInvariant : Prop :=
  ∀ s t : State, s.Inv → step s = .next t → t.Inv

/-- The reset state meets the invariant. -/
def Obligations.ResetMeetsTheInvariant : Prop := State.reset.Inv

/-- Whatever moves the host makes from `reset` on, in whatever order it may make them, with any font and either
policy, the block's state meets the invariant (R36; the model's canonical form, log 6), and between two moves it holds
no `rnd` byte and has counted no free draw: the byte is an input of the cycle move (R33; log 4). -/
def Obligations.EveryReachableBlockMeetsTheInvariant : Prop :=
  ∀ (font : List Byte) (policy : UnknownOpcodePolicy) (w : Session),
    Session.Reachable font policy w → w.state.Inv ∧ w.state.rnd = none ∧ w.state.rndDraws = 0

/-- Canonical memories that hold the same bytes are the same data (the model's canonical form, log 6). -/
def Obligations.CanonicalMemoriesAreDeterminedByTheirBytes : Prop :=
  ∀ m n : Memory, m.wf = true → n.wf = true → (∀ a, a < 0x1000 → m.read a = n.read a) → m = n

/-! ### Rules over all instructions -/

/-- Every instruction changes nothing but what the state summary of 10_state.md says it writes, and of memory nothing
but the bytes it stores to, at the addresses of R57. -/
def Obligations.EveryInstructionKeepsItsFrame : Prop :=
  ∀ (i : Instr) (s t : State), exec i s = .next t → s.Frame t (changesOf s i)

/-- The core never writes the keys; through `keys_in` the host may set any of them to any boolean, at any time between
cycles, and that changes nothing else (R233). -/
def Obligations.OnlyTheHostWritesKeys : Prop :=
  (∀ s t : State, step s = .next t → t.keys = s.keys) ∧
    ∀ (font : List Byte) (policy : UnknownOpcodePolicy) (w : Session) (k : Fin 16) (b : Bool),
      ∃ w', w.move font policy (.keysIn k b) = some w' ∧
        (∀ j : Fin 16, w'.state.keys[j.val] = if j = k then b else w.state.keys[j.val]) ∧
        w' = { w with state := { w.state with keys := w'.state.keys } }

/-- A cycle never decrements a timer: it leaves each as it is, or sets it to `V[X]` in the timer's own instruction
(R96). -/
def Obligations.CyclesLeaveTimersToTheirInstructions : Prop :=
  ∀ s t : State, step s = .next t →
    (t.delayTimer = s.delayTimer ∨ ∃ x, s.NextInstr (.ldDtVx x) ∧ t.delayTimer = s.reg x) ∧
      (t.soundTimer = s.soundTimer ∨ ∃ x, s.NextInstr (.ldStVx x) ∧ t.soundTimer = s.reg x)

/-- The draw flag is up after a step exactly when it was up or the step ran a DXYN, N = 0 included: no instruction
lowers it and 00E0 does not raise it (R185; the spec's decisions D8 and D13, log 13 and log 14). -/
def Obligations.DrawFlagIsRaisedByDrawsOnly : Prop :=
  ∀ s t : State, step s = .next t →
    (t.isDrawing = true ↔ s.isDrawing = true ∨ ∃ x y n, s.NextInstr (.drw x y n))

/-- A byte of memory differs after a step only where the step ran FX33 or FX55 and the byte is one it stores to
(R57). -/
def Obligations.MemoryIsWrittenByTwoInstructionsOnly : Prop :=
  ∀ (s t : State) (a : Nat), step s = .next t → t.mem.read a ≠ s.mem.read a →
    (∃ x, s.NextInstr (.ldB x) ∧ s.I.toNat ≤ a ∧ a ≤ s.I.toNat + 2) ∨
      ∃ x, s.NextInstr (.stRegs x) ∧ s.I.toNat ≤ a ∧ a ≤ s.I.toNat + x.toNat

/-! ### Runs of more than one cycle -/

/-- A parked state is left unchanged by every cycle (R97; the spec's decision D30), whatever byte stands on `rnd`, which
is gone afterwards (log 4). -/
def Obligations.ParkedStateStays : Prop :=
  ∀ s : State, s.Parked → step s = .next { s with rnd := none }

/-- FX0A with no key pressed leaves all state as before the cycle (R205), whatever byte stands on `rnd`, which is gone
afterwards (log 4). -/
def Obligations.WaitingForAKeyChangesNothing : Prop :=
  ∀ s : State, s.WaitsForKey → step s = .next { s with rnd := none }

/-- A call and the matching return: the return restores the `pc` the call saved and the depth before the call,
whatever happened in between, so long as the depth and the saved entry are as the call left them (R109). -/
def Obligations.ReturnUndoesTheCall : Prop :=
  ∀ (s : State) (nnn : Addr) (h : s.sp.val < 16), s.NextInstr (.call nnn) →
    ∃ t, step s = .next t ∧ t.pc = nnn ∧
      ∀ (u : State) (x : Nibble), u.NextInstr (.ret x) → u.sp = t.sp →
        u.stack[s.sp.val] = t.stack[s.sp.val] →
        ∃ v, step u = .next v ∧ v.pc = s.pc + 2 ∧ v.sp = s.sp

/-- A store to the bytes fetched next is seen by that fetch, with no fence (R64; the spec's decision D21, log 15):
after FX55 has stored `V[0]` and `V[1]` at the next instruction's address, the next step runs the word they make. -/
def Obligations.StoredInstructionIsTheOneFetched : Prop :=
  ∀ (s : State) (i : Instr), s.I = s.pc → s.pc ≠ 0xFFF →
    decode (wordOfBytes (s.reg 0) (s.reg 1)) = .ok i →
    ∃ t, exec (.stRegs 1) s = .next t ∧ step t = endCycle (exec i { t with pc := s.pc + 2 })

/-! ### Control flow -/

/-- 1NNN and BNNN (R102, R108). -/
def Obligations.JumpsSetPc : Prop :=
  ∀ (s : State) (nnn : Addr),
    (∃ t, exec (.jp nnn) s = .next t ∧ t.pc = nnn ∧ s.Frame t { pc := true }) ∧
      ∃ t, exec (.jpV0 nnn) s = .next t ∧ t.pc.toNat = (nnn.toNat + (s.reg 0).toNat) % 4096 ∧
        s.Frame t { pc := true }

/-- 2NNN (R103). -/
def Obligations.CallPushesAndJumps : Prop :=
  ∀ (s : State) (nnn : Addr),
    (∀ h : s.sp.val < 16, ∃ t, exec (.call nnn) s = .next t ∧ t.pc = nnn ∧ t.sp.val = s.sp.val + 1 ∧
        t.stack[s.sp.val] = s.pc ∧
        (∀ k, (hk : k < 16) → k ≠ s.sp.val → t.stack[k] = s.stack[k]) ∧
        s.Frame t { pc := true, stack := true }) ∧
      (s.sp.val = 16 → exec (.call nnn) s = .fault (.stackOverflow (s.pc - 2) (encode (.call nnn))))

/-- 00EE (R101). -/
def Obligations.ReturnPopsPc : Prop :=
  ∀ (s : State) (u : Nibble),
    (∀ _h : 0 < s.sp.val, ∃ t, exec (.ret u) s = .next t ∧ t.sp.val = s.sp.val - 1 ∧
        t.pc = s.stack[s.sp.val - 1] ∧ t.stack = s.stack ∧ s.Frame t { pc := true, stack := true }) ∧
      (s.sp.val = 0 → exec (.ret u) s = .fault (.stackUnderflow (s.pc - 2) (encode (.ret u))))

/-- 3XNN, 4XNN, 5XY0, 9XY0 (R104 to R107): `pc` goes 2 further, modulo 4096, exactly when the condition holds. -/
def Obligations.CompareSkipsMovePc : Prop :=
  ∀ (s : State) (x y : RegName) (nn : Byte) (u : Nibble),
    (∃ t, exec (.seImm x nn) s = .next t ∧
        t.pc.toNat = (if (s.reg x).toNat = nn.toNat then (s.pc.toNat + 2) % 4096 else s.pc.toNat) ∧
        s.Frame t { pc := true }) ∧
      (∃ t, exec (.sneImm x nn) s = .next t ∧
        t.pc.toNat = (if (s.reg x).toNat ≠ nn.toNat then (s.pc.toNat + 2) % 4096 else s.pc.toNat) ∧
        s.Frame t { pc := true }) ∧
      (∃ t, exec (.seReg x y u) s = .next t ∧
        t.pc.toNat = (if (s.reg x).toNat = (s.reg y).toNat then (s.pc.toNat + 2) % 4096 else s.pc.toNat) ∧
        s.Frame t { pc := true }) ∧
      ∃ t, exec (.sneReg x y u) s = .next t ∧
        t.pc.toNat = (if (s.reg x).toNat ≠ (s.reg y).toNat then (s.pc.toNat + 2) % 4096 else s.pc.toNat) ∧
        s.Frame t { pc := true }

/-! ### The ALU -/

/-- 6XNN and 7XNN (R132, R133): no flag is written, so VF changes only as the destination. -/
def Obligations.ImmediateLoadAndAdd : Prop :=
  ∀ (s : State) (x : RegName) (nn : Byte),
    (∃ t, exec (.ldImm x nn) s = .next t ∧ t.reg x = nn ∧ s.Frame t { regs := [x] }) ∧
      ∃ t, exec (.addImm x nn) s = .next t ∧ (t.reg x).toNat = ((s.reg x).toNat + nn.toNat) % 256 ∧
        s.Frame t { regs := [x] }

/-- 8XY0 to 8XY3 (R134 to R137), bit by bit: no flag is written. -/
def Obligations.MovesAndBitwiseOperations : Prop :=
  ∀ (s : State) (x y : RegName),
    (∃ t, exec (.ldReg x y) s = .next t ∧ t.reg x = s.reg y ∧ s.Frame t { regs := [x] }) ∧
      (∃ t, exec (.orReg x y) s = .next t ∧
        (∀ k, (t.reg x).getLsbD k = ((s.reg x).getLsbD k || (s.reg y).getLsbD k)) ∧
        s.Frame t { regs := [x] }) ∧
      (∃ t, exec (.andReg x y) s = .next t ∧
        (∀ k, (t.reg x).getLsbD k = ((s.reg x).getLsbD k && (s.reg y).getLsbD k)) ∧
        s.Frame t { regs := [x] }) ∧
      ∃ t, exec (.xorReg x y) s = .next t ∧
        (∀ k, (t.reg x).getLsbD k = ((s.reg x).getLsbD k ^^ (s.reg y).getLsbD k)) ∧
        s.Frame t { regs := [x] }

/-- 8XY4, 8XY5 and 8XY7 (R138, R139, R141) on exact integers: the operands are the values before any write, the result
is taken modulo 256 and stands in `V[X]` even when X = 0xF, and otherwise VF is the carry, or 1 exactly when the
minuend is strictly greater. -/
def Obligations.AddAndSubtractWithFlag : Prop :=
  ∀ (s : State) (x y : RegName),
    (∃ t, exec (.addReg x y) s = .next t ∧
        (t.reg x).toNat = ((s.reg x).toNat + (s.reg y).toNat) % 256 ∧
        (x ≠ 0xF → t.reg 0xF = if (s.reg x).toNat + (s.reg y).toNat > 255 then 1 else 0) ∧
        s.Frame t { regs := [x, 0xF] }) ∧
      (∃ t, exec (.subReg x y) s = .next t ∧
        ((t.reg x).toNat : Int) = (((s.reg x).toNat : Int) - ((s.reg y).toNat : Int)) % 256 ∧
        (x ≠ 0xF → t.reg 0xF = if (s.reg x).toNat > (s.reg y).toNat then 1 else 0) ∧
        s.Frame t { regs := [x, 0xF] }) ∧
      ∃ t, exec (.subn x y) s = .next t ∧
        ((t.reg x).toNat : Int) = (((s.reg y).toNat : Int) - ((s.reg x).toNat : Int)) % 256 ∧
        (x ≠ 0xF → t.reg 0xF = if (s.reg y).toNat > (s.reg x).toNat then 1 else 0) ∧
        s.Frame t { regs := [x, 0xF] }

/-- 8XY6 and 8XYE (R140, R142): the source is `V[X]`, Y makes no difference; VF is the bit shifted out, or for 8XYE the
high nibble left in its place, the document's own flag; with X = 0xF the shifted value stays. -/
def Obligations.ShiftsOfVXWithFlag : Prop :=
  ∀ (s : State) (x y : RegName),
    (∃ t, exec (.shr x y) s = .next t ∧ (t.reg x).toNat = (s.reg x).toNat / 2 ∧
        (x ≠ 0xF → (t.reg 0xF).toNat = (s.reg x).toNat % 2) ∧ s.Frame t { regs := [x, 0xF] }) ∧
      ∃ t, exec (.shl x y) s = .next t ∧ (t.reg x).toNat = (s.reg x).toNat * 2 % 256 ∧
        (x ≠ 0xF → (t.reg 0xF).toNat = (s.reg x).toNat / 16 * 16) ∧ s.Frame t { regs := [x, 0xF] }

/-- CXNN (R143, R234; the spec's decision D16, the model's form of it log 4): the byte on the `rnd` input for this
cycle, or a byte nothing is known of where the state names none, masked with NN. -/
def Obligations.RandomDrawIsMasked : Prop :=
  ∀ (s : State) (x : RegName) (nn : Byte),
    (∀ r, s.rnd = some r →
        ∃ t, exec (.rnd x nn) s = .next t ∧ t.reg x = r &&& nn ∧ s.Frame t { regs := [x] }) ∧
      (s.rnd = none → ∃ t, exec (.rnd x nn) s = .next t ∧ t.reg x = Config.freeRnd s.rndDraws &&& nn ∧
        t.rndDraws = s.rndDraws + 1 ∧ s.Frame t { regs := [x], random := true })

/-- The byte CXNN draws is the one on the `rnd` input for its own cycle: a byte of an earlier time makes no difference,
no other instruction looks at the byte, and none is left after a cycle that goes on (R95, R234; the spec's decisions D2
and D16, log 4). -/
def Obligations.RandomByteIsThatOfItsCycle : Prop :=
  ∀ (policy : UnknownOpcodePolicy) (s : State) (r : Byte),
    (∀ a, cycleWith policy r (s.presentRnd a) = cycleWith policy r s) ∧
      (∀ x nn, s.NextInstr (.rnd x nn) → ∃ t, cycleWith policy r s = .ok t ∧ t.reg x = r &&& nn) ∧
      ((∀ x nn, ¬ s.NextInstr (.rnd x nn)) → cycleWith policy r s = cycle policy s) ∧
      ∀ t, cycleWith policy r s = .ok t ∨ (∃ d, cycleWith policy r s = .diag d t) → t.rnd = none

/-! ### The index register and memory -/

/-- ANNN and FX29 (R160, R162): the glyph address is not masked and never wraps. -/
def Obligations.IndexLoads : Prop :=
  ∀ (s : State) (nnn : Addr) (x : RegName),
    (∃ t, exec (.ldI nnn) s = .next t ∧ t.I = nnn ∧ s.Frame t { index := true }) ∧
      ∃ t, exec (.ldF x) s = .next t ∧ t.I.toNat = (s.reg x).toNat * 5 ∧ s.Frame t { index := true }

/-- FX1E (R161; for X = 0xF the spec's decision D11, log 11): VF is 1 exactly when the sum passes 0xFFF; then the
addend is `V[X]` read again, which for X = 0xF is the new flag. -/
def Obligations.IndexAddSetsOverflow : Prop :=
  ∀ (s : State) (x : RegName), ∃ t, exec (.addI x) s = .next t ∧
    t.reg 0xF = (if s.I.toNat + (s.reg x).toNat > 0xFFF then 1 else 0) ∧
    t.I.toNat = (s.I.toNat + (t.reg x).toNat) % 4096 ∧
    s.Frame t { regs := [0xF], index := true }

/-- FX33 (R163; the fault by the spec's decision D4, log 9): three digits from `I` on and nothing else, or nothing at
all. -/
def Obligations.BcdStore : Prop :=
  ∀ (s : State) (x : RegName),
    (s.I.toNat + 2 ≤ 0xFFF → ∃ t, exec (.ldB x) s = .next t ∧
        (t.mem.read s.I.toNat).toNat = (s.reg x).toNat / 100 ∧
        (t.mem.read (s.I.toNat + 1)).toNat = (s.reg x).toNat / 10 % 10 ∧
        (t.mem.read (s.I.toNat + 2)).toNat = (s.reg x).toNat % 10 ∧
        s.Frame t { stored := bytesFrom s.I.toNat 3 }) ∧
      (s.I.toNat + 2 > 0xFFF →
        exec (.ldB x) s = .fault (.outOfRangeAccess (s.pc - 2) (some (encode (.ldB x))) 0x1000))

/-- FX55 (R164; the fault by the spec's decision D4, log 9): `V[k]` to `I + k` for k in 0..X and no other byte, then
`I` goes past them modulo 4096; or nothing at all. -/
def Obligations.BulkStore : Prop :=
  ∀ (s : State) (x : RegName),
    (s.I.toNat + x.toNat ≤ 0xFFF → ∃ t, exec (.stRegs x) s = .next t ∧
        (∀ k : RegName, k.toNat ≤ x.toNat → t.mem.read (s.I.toNat + k.toNat) = s.reg k) ∧
        t.I.toNat = (s.I.toNat + x.toNat + 1) % 4096 ∧
        s.Frame t { index := true, stored := bytesFrom s.I.toNat (x.toNat + 1) }) ∧
      (s.I.toNat + x.toNat > 0xFFF →
        exec (.stRegs x) s = .fault (.outOfRangeAccess (s.pc - 2) (some (encode (.stRegs x))) 0x1000))

/-- FX65 (R165; the fault by the spec's decision D4, log 9): `V[k]` from `I + k` for k in 0..X and no other register,
then `I` goes past them modulo 4096; or nothing at all. -/
def Obligations.BulkLoad : Prop :=
  ∀ (s : State) (x : RegName),
    (s.I.toNat + x.toNat ≤ 0xFFF → ∃ t, exec (.ldRegs x) s = .next t ∧
        (∀ k : RegName, t.reg k =
          if k.toNat ≤ x.toNat then s.mem.read (s.I.toNat + k.toNat) else s.reg k) ∧
        t.I.toNat = (s.I.toNat + x.toNat + 1) % 4096 ∧
        s.Frame t { regs := regNamesUpTo x, index := true }) ∧
      (s.I.toNat + x.toNat > 0xFFF →
        exec (.ldRegs x) s = .fault (.outOfRangeAccess (s.pc - 2) (some (encode (.ldRegs x))) 0x1000))

/-- `MemRead` after `MemWrite` (R51, R52, R62; the faults by the spec's decision D4, log 9; every address in range may
be written, D21, log 15). -/
def Obligations.MemReadAfterMemWrite : Prop :=
  ∀ (m : Memory) (a b : Nat) (v : Byte),
    (a ≤ 0xFFF → ∃ m', memWrite m a v = .ok m' ∧
        memRead m' b = (if b = a then .ok v else memRead m b)) ∧
      (a > 0xFFF → memWrite m a v = .error a ∧ memRead m a = .error a)

/-! ### The screen -/

/-- 00E0 (R181; `isDrawing` unchanged by the spec's decision D13, log 13). -/
def Obligations.ClearTurnsEveryPixelOff : Prop :=
  ∀ (s : State) (u : Nibble), ∃ t, exec (.cls u) s = .next t ∧
    (∀ x y, t.screen.pixel x y = false) ∧ s.Frame t { screen := true }

/-- DXYN (R182 to R185; N = 0, the origin and the faults by the spec's decisions D8, D9, D10, log 14): with M the set
of pixels that the 1-bits of the N bytes from `I` on map to, most significant bit leftmost, wrapping, the screen after
is S XOR M, VF is 1 exactly when S AND M is not empty, and the draw flag is up; or nothing at all changes. -/
def Obligations.DrawIsXorWithCollision : Prop :=
  ∀ (s : State) (x y : RegName) (n : Nibble),
    (s.I.toNat + n.toNat ≤ 0x1000 → ∃ t, exec (.drw x y n) s = .next t ∧
        (∀ (px : Fin 64) (py : Fin 32),
          (t.screen.pixel px.val py.val ≠ s.screen.pixel px.val py.val ↔
            ∃ r b, r < n.toNat ∧ b < 8 ∧ (s.mem.read (s.I.toNat + r)).getLsbD (7 - b) = true ∧
              px.val = ((s.reg x).toNat + b) % 64 ∧ py.val = ((s.reg y).toNat + r) % 32)) ∧
        (t.reg 0xF = 0 ∨ t.reg 0xF = 1) ∧
        (t.reg 0xF = 1 ↔ ∃ (px : Fin 64) (py : Fin 32), s.screen.pixel px.val py.val = true ∧
          ∃ r b, r < n.toNat ∧ b < 8 ∧ (s.mem.read (s.I.toNat + r)).getLsbD (7 - b) = true ∧
            px.val = ((s.reg x).toNat + b) % 64 ∧ py.val = ((s.reg y).toNat + r) % 32) ∧
        t.isDrawing = true ∧ s.Frame t { regs := [0xF], drawing := true, screen := true }) ∧
      (s.I.toNat + n.toNat > 0x1000 → exec (.drw x y n) s =
        .fault (.outOfRangeAccess (s.pc - 2) (some (encode (.drw x y n))) 0x1000))

/-- Drawing the same sprite twice at the same origin restores the screen, and the second draw reports a collision
exactly when the first turned a pixel on (R186). -/
def Obligations.DrawingTwiceRestoresTheScreen : Prop :=
  ∀ (s t u : State) (x y x' y' : RegName) (n : Nibble),
    exec (.drw x y n) s = .next t →
    u.screen = t.screen → u.I = s.I → u.reg x' = s.reg x → u.reg y' = s.reg y →
    (∀ r, r < n.toNat → u.mem.read (s.I.toNat + r) = s.mem.read (s.I.toNat + r)) →
    ∃ v, exec (.drw x' y' n) u = .next v ∧ v.screen = s.screen ∧
      (v.reg 0xF = 1 ↔ ∃ (px : Fin 64) (py : Fin 32),
        s.screen.pixel px.val py.val = false ∧ t.screen.pixel px.val py.val = true)

/-! ### Keys and timers -/

/-- EX9E and EXA1 (R201, R202; an index of 16 or more is not pressed by R200, the spec's decision D12, log 12). -/
def Obligations.KeySkipsMovePc : Prop :=
  ∀ (s : State) (x : RegName),
    (∀ h : (s.reg x).toNat < 16,
      (∃ t, exec (.skp x) s = .next t ∧
          t.pc = (if s.keys[(s.reg x).toNat] = true then s.pc + 2 else s.pc) ∧ s.Frame t { pc := true }) ∧
        ∃ t, exec (.sknp x) s = .next t ∧
          t.pc = (if s.keys[(s.reg x).toNat] = true then s.pc else s.pc + 2) ∧ s.Frame t { pc := true }) ∧
      (16 ≤ (s.reg x).toNat →
        (∃ t, exec (.skp x) s = .next t ∧ t.pc = s.pc ∧ s.Frame t {}) ∧
          ∃ t, exec (.sknp x) s = .next t ∧ t.pc = s.pc + 2 ∧ s.Frame t { pc := true })

/-- FX0A (R204): the lowest pressed key is taken, and with none pressed `pc` goes back to the instruction and nothing
else changes. -/
def Obligations.WaitForKeyTakesTheLowest : Prop :=
  ∀ (s : State) (x : RegName),
    (∀ k : Fin 16, s.keys[k.val] = true → (∀ j : Fin 16, j < k → s.keys[j.val] = false) →
      ∃ t, exec (.ldVxK x) s = .next t ∧ (t.reg x).toNat = k.val ∧ s.Frame t { regs := [x] }) ∧
      ((∀ k : Fin 16, s.keys[k.val] = false) →
        ∃ t, exec (.ldVxK x) s = .next t ∧ t.pc = s.pc - 2 ∧ s.Frame t { pc := true })

/-- FX07, FX15 and FX18 (R203, R206, R207). -/
def Obligations.TimerReadsAndWrites : Prop :=
  ∀ (s : State) (x : RegName),
    (∃ t, exec (.ldVxDt x) s = .next t ∧ t.reg x = s.delayTimer ∧ s.Frame t { regs := [x] }) ∧
      (∃ t, exec (.ldDtVx x) s = .next t ∧ t.delayTimer = s.reg x ∧ s.Frame t { delay := true }) ∧
      ∃ t, exec (.ldStVx x) s = .next t ∧ t.soundTimer = s.reg x ∧
        (t.soundActive = true ↔ s.reg x ≠ 0) ∧ s.Frame t { sound := true }

/-! ### Reset and the host's ports -/

/-- The reset state (R260). `pc`, the registers, `I` and the font are the document's; the other values are the spec's
decision D14 and the font's bytes past the first D15 (log 5, log 2). -/
def Obligations.ResetState : Prop :=
  (∀ x, State.reset.reg x = 0) ∧ State.reset.pc = 0x200 ∧ State.reset.I = 0 ∧ State.reset.sp.val = 0 ∧
    (∀ k : Fin 16, State.reset.stack[k.val] = 0) ∧ State.reset.delayTimer = 0 ∧ State.reset.soundTimer = 0 ∧
    State.reset.isDrawing = false ∧ (∀ x y, State.reset.screen.pixel x y = false) ∧
    (∀ k : Fin 16, State.reset.keys[k.val] = false) ∧ State.reset.mem.read 0 = 0xF0 ∧
    (∀ a, a < 80 → State.reset.mem.read a = Config.defaultFont.getD a 0) ∧
    ∀ a, 80 ≤ a → State.reset.mem.read a = 0

/-- Reset of a machine with any value of the parameter `FONT` (R6, R261; log 2): the 80 bytes stand at 0x000..0x04F,
the rest of memory is 0, everything else is as in the reset state, and the default font gives that state itself. -/
def Obligations.ResetInstallsAnyFont : Prop :=
  (∀ font : List Byte, fontWellFormed font = true →
      (∀ a, (h : a < font.length) → (State.resetWithFont font).mem.read a = font[a]) ∧
        (∀ a, 80 ≤ a → (State.resetWithFont font).mem.read a = 0) ∧
        State.resetWithFont font = { State.reset with mem := (State.resetWithFont font).mem }) ∧
    State.resetWithFont Config.defaultFont = State.reset

/-- The program load (R262, R263; the spec's decision D22, log 16): at most 3584 bytes go to 0x200 on and nothing
else changes; more are refused whole. -/
def Obligations.LoadWritesTheProgramOrNothing : Prop :=
  ∀ (s : State) (bytes : List Byte),
    (bytes.length ≤ 3584 → ∃ t, s.load bytes = .ok t ∧
        (∀ j, (h : j < bytes.length) → t.mem.read (0x200 + j) = bytes[j]) ∧
        (∀ a, a < 0x200 ∨ 0x200 + bytes.length ≤ a → t.mem.read a = s.mem.read a) ∧
        t = { s with mem := t.mem }) ∧
      (3584 < bytes.length → s.load bytes = .error (.programTooLarge bytes.length))

/-- `tick` (R230; the spec's decision D24, log 16): each nonzero timer goes down by 1, a timer at 0 stays, nothing else
changes. -/
def Obligations.TickCountsBothTimersDown : Prop :=
  ∀ s : State, s.tick.delayTimer.toNat = s.delayTimer.toNat - 1 ∧
    s.tick.soundTimer.toNat = s.soundTimer.toNat - 1 ∧ s.Frame s.tick { delay := true, sound := true }

/-- The output ports and `ackDraw` (R187, R232; the spec's decisions D23 and D25, log 16). -/
def Obligations.OutputsShowTheStateAndAckClearsTheFlag : Prop :=
  ∀ (s : State) (x : Fin 64) (y : Fin 32),
    (s.soundActive = true ↔ s.soundTimer.toNat ≠ 0) ∧ s.drawPending = s.isDrawing ∧
      s.fbOut x y = (s.screen[x.val])[y.val] ∧ s.ackDraw = { s with isDrawing := false }

/-- The outcome port holds no value until the first cycle, and a program is loaded at most once and only before it
(R260, R262, R264; the model's form of the protocol, log 17). -/
def Obligations.NoOutcomeBeforeTheFirstCycle : Prop :=
  ∀ (font : List Byte) (policy : UnknownOpcodePolicy) (w : Session), Session.Reachable font policy w →
    (w.phase = .fresh ∨ w.phase = .loaded → w.outcome = none) ∧
      (w.phase = .fresh → ∀ a, w.state.mem.read a = (State.resetWithFont font).mem.read a) ∧
      ∀ bytes, (w.move font policy (.load bytes)).isSome = true → w.phase = .fresh
end

