-- ==== Sys2Proof/Laws/Decode.lean ====
section
/-! SUPPORT. Words and their fields as numbers: the fields of an encoded word, and a word put together again from
its fields. -/

namespace Sys2Proof

theorem toNat_append_eq {m n : Nat} (a : BitVec m) (b : BitVec n) :
    (a ++ b).toNat = a.toNat * 2 ^ n + b.toNat := by
  rw [BitVec.toNat_append, ← Nat.shiftLeft_add_eq_or_of_lt b.isLt, Nat.shiftLeft_eq]

/-! ### Fields as numbers -/

theorem fieldG_toNat (oc : Word) : (fieldG oc).toNat = oc.toNat / 4096 % 16 := by
  simp [fieldG, Nat.shiftRight_eq_div_pow]

theorem fieldX_toNat (oc : Word) : (fieldX oc).toNat = oc.toNat / 256 % 16 := by
  simp [fieldX, Nat.shiftRight_eq_div_pow]

theorem fieldY_toNat (oc : Word) : (fieldY oc).toNat = oc.toNat / 16 % 16 := by
  simp [fieldY, Nat.shiftRight_eq_div_pow]

theorem fieldN_toNat (oc : Word) : (fieldN oc).toNat = oc.toNat % 16 := by
  simp [fieldN]

theorem fieldNN_toNat (oc : Word) : (fieldNN oc).toNat = oc.toNat % 256 := by
  simp [fieldNN]

theorem fieldNNN_toNat (oc : Word) : (fieldNNN oc).toNat = oc.toNat % 4096 := by
  simp [fieldNNN]

theorem wordOfBytes_toNat (hi lo : Byte) : (wordOfBytes hi lo).toNat = hi.toNat * 256 + lo.toNat :=
  toNat_append_eq hi lo

/-- Splitting a word into its bytes and putting them together again. -/
theorem wordOfBytes_bytesOfWord (oc : Word) : wordOfBytes (bytesOfWord oc).1 (bytesOfWord oc).2 = oc := by
  apply BitVec.eq_of_toNat_eq
  have := oc.isLt
  rw [wordOfBytes_toNat]
  simp [bytesOfWord, Nat.shiftRight_eq_div_pow]
  omega

/-! ### The three forms of word as numbers -/

theorem encodeGXYN_toNat (g x y n : Nibble) :
    (encodeGXYN g x y n).toNat = g.toNat * 4096 + x.toNat * 256 + y.toNat * 16 + n.toNat := by
  have h := toNat_append_eq (g ++ x ++ y) n
  rw [toNat_append_eq (g ++ x) y, toNat_append_eq g x] at h
  show (g ++ x ++ y ++ n).toNat = _
  rw [h]; omega

theorem encodeGXNN_toNat (g x : Nibble) (nn : Byte) :
    (encodeGXNN g x nn).toNat = g.toNat * 4096 + x.toNat * 256 + nn.toNat := by
  have h := toNat_append_eq (g ++ x) nn
  rw [toNat_append_eq g x] at h
  show (g ++ x ++ nn).toNat = _
  rw [h]; omega

theorem encodeGNNN_toNat (g : Nibble) (nnn : Addr) :
    (encodeGNNN g nnn).toNat = g.toNat * 4096 + nnn.toNat := by
  exact toNat_append_eq g nnn

/-! ### The fields of each form -/

section GXYN

variable (g x y n : Nibble)

@[simp] theorem fieldG_encodeGXYN : fieldG (encodeGXYN g x y n) = g := by
  apply BitVec.eq_of_toNat_eq
  have := g.isLt; have := x.isLt; have := y.isLt; have := n.isLt
  rw [fieldG_toNat, encodeGXYN_toNat]; omega

@[simp] theorem fieldX_encodeGXYN : fieldX (encodeGXYN g x y n) = x := by
  apply BitVec.eq_of_toNat_eq
  have := x.isLt; have := y.isLt; have := n.isLt
  rw [fieldX_toNat, encodeGXYN_toNat]; omega

@[simp] theorem fieldY_encodeGXYN : fieldY (encodeGXYN g x y n) = y := by
  apply BitVec.eq_of_toNat_eq
  have := y.isLt; have := n.isLt
  rw [fieldY_toNat, encodeGXYN_toNat]; omega

@[simp] theorem fieldN_encodeGXYN : fieldN (encodeGXYN g x y n) = n := by
  apply BitVec.eq_of_toNat_eq
  have := n.isLt
  rw [fieldN_toNat, encodeGXYN_toNat]; omega

end GXYN

section GXNN

variable (g x : Nibble) (nn : Byte)

@[simp] theorem fieldG_encodeGXNN : fieldG (encodeGXNN g x nn) = g := by
  apply BitVec.eq_of_toNat_eq
  have := g.isLt; have := x.isLt; have := nn.isLt
  rw [fieldG_toNat, encodeGXNN_toNat]; omega

@[simp] theorem fieldX_encodeGXNN : fieldX (encodeGXNN g x nn) = x := by
  apply BitVec.eq_of_toNat_eq
  have := x.isLt; have := nn.isLt
  rw [fieldX_toNat, encodeGXNN_toNat]; omega

@[simp] theorem fieldNN_encodeGXNN : fieldNN (encodeGXNN g x nn) = nn := by
  apply BitVec.eq_of_toNat_eq
  have := nn.isLt
  rw [fieldNN_toNat, encodeGXNN_toNat]; omega

end GXNN

section GNNN

variable (g : Nibble) (nnn : Addr)

@[simp] theorem fieldG_encodeGNNN : fieldG (encodeGNNN g nnn) = g := by
  apply BitVec.eq_of_toNat_eq
  have := g.isLt; have := nnn.isLt
  rw [fieldG_toNat, encodeGNNN_toNat]; omega

@[simp] theorem fieldNNN_encodeGNNN : fieldNNN (encodeGNNN g nnn) = nnn := by
  apply BitVec.eq_of_toNat_eq
  have := nnn.isLt
  rw [fieldNNN_toNat, encodeGNNN_toNat]; omega

end GNNN

/-! ### A word from its fields -/

theorem encodeGXYN_fields (oc : Word) : encodeGXYN (fieldG oc) (fieldX oc) (fieldY oc) (fieldN oc) = oc := by
  apply BitVec.eq_of_toNat_eq
  have := oc.isLt
  rw [encodeGXYN_toNat, fieldG_toNat, fieldX_toNat, fieldY_toNat, fieldN_toNat]; omega

theorem encodeGXNN_fields (oc : Word) : encodeGXNN (fieldG oc) (fieldX oc) (fieldNN oc) = oc := by
  apply BitVec.eq_of_toNat_eq
  have := oc.isLt
  rw [encodeGXNN_toNat, fieldG_toNat, fieldX_toNat, fieldNN_toNat]; omega

theorem encodeGNNN_fields (oc : Word) : encodeGNNN (fieldG oc) (fieldNNN oc) = oc := by
  apply BitVec.eq_of_toNat_eq
  have := oc.isLt
  rw [encodeGNNN_toNat, fieldG_toNat, fieldNNN_toNat]; omega

/-! ### The three masks of the opcode map keep fields only -/

theorem encodeGXYN_and (g x y n g' x' y' n' : Nibble) :
    encodeGXYN g x y n &&& encodeGXYN g' x' y' n' = encodeGXYN (g &&& g') (x &&& x') (y &&& y') (n &&& n') := by
  simp only [encodeGXYN]
  rw [BitVec.and_append, BitVec.and_append, BitVec.and_append]

theorem encodeGXNN_and (g x g' x' : Nibble) (nn nn' : Byte) :
    encodeGXNN g x nn &&& encodeGXNN g' x' nn' = encodeGXNN (g &&& g') (x &&& x') (nn &&& nn') := by
  simp only [encodeGXNN]
  rw [BitVec.and_append, BitVec.and_append]

theorem encodeGNNN_and (g g' : Nibble) (nnn nnn' : Addr) :
    encodeGNNN g nnn &&& encodeGNNN g' nnn' = encodeGNNN (g &&& g') (nnn &&& nnn') := by
  simp only [encodeGNNN]
  rw [BitVec.and_append]

theorem nibble_and_F (a : Nibble) : a &&& 0xF = a := by revert a; decide

theorem byte_and_FF (a : Byte) : a &&& 0xFF = a := by revert a; decide

theorem encodeGXYN_and_F000 (g x y n : Nibble) : encodeGXYN g x y n &&& 0xF000 = encodeGXYN g 0 0 0 := by
  rw [show (0xF000 : Word) = encodeGXYN 0xF 0 0 0 by decide, encodeGXYN_and, nibble_and_F]
  simp

theorem encodeGXYN_and_F00F (g x y n : Nibble) : encodeGXYN g x y n &&& 0xF00F = encodeGXYN g 0 0 n := by
  rw [show (0xF00F : Word) = encodeGXYN 0xF 0 0 0xF by decide, encodeGXYN_and, nibble_and_F, nibble_and_F]
  simp

theorem encodeGXNN_and_F000 (g x : Nibble) (nn : Byte) : encodeGXNN g x nn &&& 0xF000 = encodeGXYN g 0 0 0 := by
  rw [show (0xF000 : Word) = encodeGXNN 0xF 0 0 by decide, encodeGXNN_and, nibble_and_F]
  revert g; simp; decide

theorem encodeGXNN_and_F0FF (g x : Nibble) (nn : Byte) : encodeGXNN g x nn &&& 0xF0FF = encodeGXNN g 0 nn := by
  rw [show (0xF0FF : Word) = encodeGXNN 0xF 0 0xFF by decide, encodeGXNN_and, nibble_and_F, byte_and_FF]
  simp

theorem encodeGNNN_and_F000 (g : Nibble) (nnn : Addr) : encodeGNNN g nnn &&& 0xF000 = encodeGXYN g 0 0 0 := by
  rw [show (0xF000 : Word) = encodeGNNN 0xF 0 by decide, encodeGNNN_and, nibble_and_F]
  revert g; simp; decide

end Sys2Proof
end

