-- ==== Sys2Proof/Laws/Memory.lean ====
section
/-! SUPPORT. The laws of memory: read after write, the canonical form, and what a run of bytes reads or stores. -/

namespace Sys2Proof.Machine

/-! ### One byte -/

@[simp] theorem Memory.read_nil (a : Nat) : Memory.read [] a = Memory.unlisted a := rfl

@[simp] theorem Memory.read_cons (c : Host.Cell) (m : Memory) (a : Nat) :
    Memory.read (c :: m) a = if c.1 = a then c.2 else Memory.read m a := rfl

theorem Memory.read_place_same (m : Memory) (a : Nat) (v : Byte) (h : ∀ c ∈ m, c.1 ≠ a) :
    (Memory.place m a v).read a = v := by
  induction m with
  | nil => simp [Memory.place]
  | cons c m ih =>
    simp only [Memory.place]
    split
    · simp
    · simp [h c (by simp), ih fun d hd => h d (by simp [hd])]

theorem Memory.read_place_other (m : Memory) (a b : Nat) (v : Byte) (h : b ≠ a) :
    (Memory.place m a v).read b = m.read b := by
  induction m with
  | nil => simp [Memory.place, Ne.symm h]
  | cons c m ih =>
    simp only [Memory.place]
    split
    · simp [Ne.symm h]
    · simp [ih]

theorem Memory.read_unlist_same (m : Memory) (a : Nat) : (m.unlist a).read a = Memory.unlisted a := by
  induction m with
  | nil => rfl
  | cons c m ih =>
    by_cases hc : c.1 = a
    · simpa [Memory.unlist, List.filter_cons, hc] using ih
    · simpa [Memory.unlist, List.filter_cons, hc] using ih

theorem Memory.read_unlist_other (m : Memory) (a b : Nat) (h : b ≠ a) : (m.unlist a).read b = m.read b := by
  induction m with
  | nil => rfl
  | cons c m ih =>
    by_cases hc : c.1 = a
    · simpa [Memory.unlist, List.filter_cons, hc, Ne.symm h] using ih
    · by_cases hb : c.1 = b
      · simp [Memory.unlist, hb, h]
      · simpa [Memory.unlist, List.filter_cons, hc, hb] using ih

theorem Memory.not_listed_unlist (m : Memory) (a : Nat) : ∀ c ∈ m.unlist a, c.1 ≠ a := by
  intro c hc
  simpa using (List.mem_filter.mp hc).2

/-- Reading what has just been written. -/
@[simp] theorem Memory.read_write_same (m : Memory) (a : Nat) (v : Byte) : (m.write a v).read a = v := by
  unfold Memory.write
  split
  · rename_i h; rw [Memory.read_unlist_same, h]
  · exact Memory.read_place_same _ _ _ (Memory.not_listed_unlist m a)

/-- A write leaves every other address alone. -/
theorem Memory.read_write_other (m : Memory) (a b : Nat) (v : Byte) (h : b ≠ a) :
    (m.write a v).read b = m.read b := by
  unfold Memory.write
  split
  · exact Memory.read_unlist_other m a b h
  · rw [Memory.read_place_other _ _ _ _ h, Memory.read_unlist_other m a b h]

theorem Memory.read_write (m : Memory) (a b : Nat) (v : Byte) :
    (m.write a v).read b = if b = a then v else m.read b := by
  by_cases h : b = a
  · subst h; simp
  · simp [h, Memory.read_write_other m a b v h]

/-! ### The canonical form -/

theorem Memory.wf_nil : Memory.wf [] = true := rfl

theorem Memory.wf_cons (c : Host.Cell) (m : Memory) :
    Memory.wf (c :: m) = true ↔
      c.1 < 0x1000 ∧ c.2 ≠ Memory.unlisted c.1 ∧ (∀ d ∈ m, c.1 < d.1) ∧ Memory.wf m = true := by
  simp [Memory.wf, and_assoc]

theorem Memory.unlist_wf (m : Memory) (a : Nat) (h : m.wf = true) : (m.unlist a).wf = true := by
  induction m with
  | nil => exact h
  | cons c m ih =>
    obtain ⟨h1, h2, h3, h4⟩ := (Memory.wf_cons c m).mp h
    by_cases hc : c.1 = a
    · simpa [Memory.unlist, List.filter_cons, hc] using ih h4
    · have : Memory.unlist (c :: m) a = c :: Memory.unlist m a := by simp [Memory.unlist, hc]
      rw [this, Memory.wf_cons]
      exact ⟨h1, h2, fun d hd => h3 d (List.mem_filter.mp hd).1, ih h4⟩

theorem Memory.mem_place (m : Memory) (a : Nat) (v : Byte) (d : Host.Cell) :
    d ∈ Memory.place m a v ↔ d = (a, v) ∨ d ∈ m := by
  induction m with
  | nil => simp [Memory.place]
  | cons c m ih =>
    simp only [Memory.place]
    split
    · simp
    · simp only [List.mem_cons, ih]
      constructor
      · rintro (h | h | h) <;> simp [h]
      · rintro (h | h | h) <;> simp [h]

theorem Memory.place_wf (m : Memory) (a : Nat) (v : Byte) (h : m.wf = true) (ha : a < 0x1000)
    (hv : v ≠ Memory.unlisted a) (hn : ∀ c ∈ m, c.1 ≠ a) : (Memory.place m a v).wf = true := by
  induction m with
  | nil => simp [Memory.place, Memory.wf_cons, ha, hv, Memory.wf_nil]
  | cons c m ih =>
    obtain ⟨h1, h2, h3, h4⟩ := (Memory.wf_cons c m).mp h
    simp only [Memory.place]
    split
    · rename_i hlt
      rw [Memory.wf_cons]
      refine ⟨ha, hv, ?_, h⟩
      intro d hd
      rcases List.mem_cons.mp hd with rfl | hd
      · exact hlt
      · exact Nat.lt_trans hlt (h3 d hd)
    · rename_i hlt
      have hne := hn c (by simp)
      rw [Memory.wf_cons]
      refine ⟨h1, h2, ?_, ih h4 fun d hd => hn d (by simp [hd])⟩
      intro d hd
      rcases (Memory.mem_place m a v d).mp hd with rfl | hd
      · exact Nat.lt_of_le_of_ne (Nat.le_of_not_lt hlt) hne
      · exact h3 d hd

/-- A write inside the address space keeps the canonical form. -/
theorem Memory.write_wf (m : Memory) (a : Nat) (v : Byte) (h : m.wf = true) (ha : a < 0x1000) :
    (m.write a v).wf = true := by
  unfold Memory.write
  split
  · exact Memory.unlist_wf m a h
  · rename_i hv
    exact Memory.place_wf _ a v (Memory.unlist_wf m a h) ha hv (Memory.not_listed_unlist m a)

/-- A canonical memory reads its reset content outside the address space. -/
theorem Memory.read_outside (m : Memory) (a : Nat) (h : m.wf = true) (ha : 0x1000 ≤ a) :
    m.read a = Memory.unlisted a := by
  induction m with
  | nil => rfl
  | cons c m ih =>
    obtain ⟨h1, -, -, h4⟩ := (Memory.wf_cons c m).mp h
    have : c.1 ≠ a := by omega
    simp [this, ih h4]

theorem Memory.read_of_lt (m : Memory) (a : Nat) (h : ∀ d ∈ m, a < d.1) : m.read a = Memory.unlisted a := by
  induction m with
  | nil => rfl
  | cons c m ih =>
    have : c.1 ≠ a := by have := h c (by simp); omega
    simp [this, ih fun d hd => h d (by simp [hd])]

/-! ### `MemRead`, `MemWrite` -/

theorem memRead_ok (m : Memory) (a : Nat) (h : a < 0x1000) : memRead m a = .ok (m.read a) := by
  unfold memRead; rw [if_neg (by omega)]

theorem memRead_error (m : Memory) (a : Nat) (h : 0x1000 ≤ a) : memRead m a = .error a := by
  unfold memRead; rw [if_pos (by omega)]

theorem memWrite_ok (m : Memory) (a : Nat) (v : Byte) (h : a < 0x1000) : memWrite m a v = .ok (m.write a v) := by
  unfold memWrite; rw [if_neg (by omega)]

theorem memWrite_error (m : Memory) (a : Nat) (v : Byte) (h : 0x1000 ≤ a) : memWrite m a v = .error a := by
  unfold memWrite; rw [if_pos (by omega)]

/-! ### Runs of bytes -/

/-- `memory[a], ..., memory[a + n - 1]`, with no bound on the addresses. -/
def Memory.slice (m : Memory) (a n : Nat) : List Byte := (List.range n).map fun k => m.read (a + k)

@[simp] theorem Memory.slice_length (m : Memory) (a n : Nat) : (m.slice a n).length = n := by
  simp [Memory.slice]

theorem Memory.slice_succ (m : Memory) (a n : Nat) : m.slice a (n + 1) = m.read a :: m.slice (a + 1) n := by
  simp only [Memory.slice, List.range_succ_eq_map, List.map_cons, List.map_map, Nat.add_zero]
  congr 1
  apply List.map_congr_left
  intro k _
  show m.read (a + (k + 1)) = m.read (a + 1 + k)
  congr 1; omega

/-- Reading a run that fits gives its bytes. -/
theorem readBytes_ok (m : Memory) (a n : Nat) (h : a + n ≤ 0x1000) : readBytes m a n = .ok (m.slice a n) := by
  induction n generalizing a with
  | zero => rfl
  | succ n ih => simp [readBytes, memRead_ok m a (by omega), ih (a + 1) (by omega), Memory.slice_succ]

/-- Reading a run that does not fit fails at 0x1000, its lowest address out of range. -/
theorem readBytes_error (m : Memory) (a n : Nat) (ha : a ≤ 0x1000) (h : 0x1000 < a + n) :
    readBytes m a n = .error 0x1000 := by
  induction n generalizing a with
  | zero => omega
  | succ n ih =>
    by_cases hlt : a < 0x1000
    · simp [readBytes, memRead_ok m a hlt, ih (a + 1) (by omega) (by omega)]
    · have : a = 0x1000 := by omega
      subst this
      simp [readBytes, memRead_error m 0x1000 (by omega)]

/-- Storing a run that fits writes its bytes one after the other. -/
theorem writeBytes_ok (m : Memory) (a : Nat) (bs : List Byte) (h : a + bs.length ≤ 0x1000) :
    writeBytes m a bs = .ok (m.writeAll a bs) := by
  induction bs generalizing m a with
  | nil => rfl
  | cons b bs ih =>
    simp only [List.length_cons] at h
    simp [writeBytes, memWrite_ok m a b (by omega), ih _ (a + 1) (by omega), Memory.writeAll]

/-- Storing a run that does not fit fails at 0x1000, and there is no memory after it. -/
theorem writeBytes_error (m : Memory) (a : Nat) (bs : List Byte) (ha : a ≤ 0x1000) (h : 0x1000 < a + bs.length) :
    writeBytes m a bs = .error 0x1000 := by
  induction bs generalizing m a with
  | nil => simp only [List.length_nil] at h; omega
  | cons b bs ih =>
    simp only [List.length_cons] at h
    by_cases hlt : a < 0x1000
    · simp [writeBytes, memWrite_ok m a b hlt, ih _ (a + 1) (by omega) (by omega)]
    · have : a = 0x1000 := by omega
      subst this
      simp [writeBytes, memWrite_error m 0x1000 b (by omega)]

/-- Everything a store of a run can do: it fits and the bytes are written, or it fails at 0x1000. -/
theorem writeBytes_cases (m : Memory) (a : Nat) (bs : List Byte) (ha : a ≤ 0x1000) :
    (a + bs.length ≤ 0x1000 ∧ writeBytes m a bs = .ok (m.writeAll a bs)) ∨
      (0x1000 < a + bs.length ∧ writeBytes m a bs = .error 0x1000) := by
  by_cases h : a + bs.length ≤ 0x1000
  · exact .inl ⟨h, writeBytes_ok m a bs h⟩
  · exact .inr ⟨by omega, writeBytes_error m a bs ha (by omega)⟩

/-- Everything a read of a run can do: it fits and gives the bytes, or it fails at 0x1000. -/
theorem readBytes_cases (m : Memory) (a n : Nat) (ha : a ≤ 0x1000) :
    (a + n ≤ 0x1000 ∧ readBytes m a n = .ok (m.slice a n)) ∨
      (0x1000 < a + n ∧ readBytes m a n = .error 0x1000) := by
  by_cases h : a + n ≤ 0x1000
  · exact .inl ⟨h, readBytes_ok m a n h⟩
  · exact .inr ⟨by omega, readBytes_error m a n ha (by omega)⟩

/-- What memory reads after a run of bytes is put in: the run's bytes inside it, the old bytes outside. -/
theorem Memory.read_writeAll (m : Memory) (a b : Nat) (bs : List Byte) :
    (m.writeAll a bs).read b =
      if h : a ≤ b ∧ b < a + bs.length then bs[b - a]'(by omega) else m.read b := by
  induction bs generalizing m a with
  | nil => simp [Memory.writeAll] <;> omega
  | cons v bs ih =>
    simp only [Memory.writeAll, ih, List.length_cons, Memory.read_write]
    by_cases hab : b = a
    · subst hab
      simp <;> omega
    · by_cases hin : a + 1 ≤ b ∧ b < a + 1 + bs.length
      · have h2 : a ≤ b ∧ b < a + (bs.length + 1) := by omega
        have h3 : b - a = (b - (a + 1)) + 1 := by omega
        rw [dif_pos hin, dif_pos h2]
        simp [h3]
      · have h2 : ¬(a ≤ b ∧ b < a + (bs.length + 1)) := by omega
        rw [dif_neg hin, dif_neg h2, if_neg hab]

/-- Putting in a run inside the address space keeps the canonical form. -/
theorem Memory.writeAll_wf (m : Memory) (a : Nat) (bs : List Byte) (h : m.wf = true)
    (ha : a + bs.length ≤ 0x1000) : (m.writeAll a bs).wf = true := by
  induction bs generalizing m a with
  | nil => exact h
  | cons b bs ih =>
    simp only [List.length_cons] at ha
    exact ih _ (a + 1) (Memory.write_wf m a b h (by omega)) (by omega)

/-- The reset memory is canonical. -/
theorem reset_mem_wf : State.reset.mem.wf = true := rfl

end Sys2Proof.Machine
end

