-- ==== Sys2Proof/Laws/State.lean ====
section
/-! SUPPORT. What each named update of the state does to each field (one lemma per field per update, true by
unfolding the update once), so that no later proof unfolds a record update. -/

namespace Sys2Proof.Machine

variable (s : State)

/-! ### `setReg` -/

@[simp] theorem State.setReg_V (x : RegName) (v : Byte) : (s.setReg x v).V = s.V.set x.toNat v x.isLt := rfl
@[simp] theorem State.setReg_pc (x : RegName) (v : Byte) : (s.setReg x v).pc = s.pc := rfl
@[simp] theorem State.setReg_I (x : RegName) (v : Byte) : (s.setReg x v).I = s.I := rfl
@[simp] theorem State.setReg_sp (x : RegName) (v : Byte) : (s.setReg x v).sp = s.sp := rfl
@[simp] theorem State.setReg_stack (x : RegName) (v : Byte) : (s.setReg x v).stack = s.stack := rfl
@[simp] theorem State.setReg_delayTimer (x : RegName) (v : Byte) : (s.setReg x v).delayTimer = s.delayTimer := rfl
@[simp] theorem State.setReg_soundTimer (x : RegName) (v : Byte) : (s.setReg x v).soundTimer = s.soundTimer := rfl
@[simp] theorem State.setReg_isDrawing (x : RegName) (v : Byte) : (s.setReg x v).isDrawing = s.isDrawing := rfl
@[simp] theorem State.setReg_screen (x : RegName) (v : Byte) : (s.setReg x v).screen = s.screen := rfl
@[simp] theorem State.setReg_keys (x : RegName) (v : Byte) : (s.setReg x v).keys = s.keys := rfl
@[simp] theorem State.setReg_mem (x : RegName) (v : Byte) : (s.setReg x v).mem = s.mem := rfl
@[simp] theorem State.setReg_rnd (x : RegName) (v : Byte) : (s.setReg x v).rnd = s.rnd := rfl
@[simp] theorem State.setReg_rndDraws (x : RegName) (v : Byte) : (s.setReg x v).rndDraws = s.rndDraws := rfl

/-! ### `setFlag` -/

@[simp] theorem State.setFlag_V (f : Byte) : (s.setFlag f).V = s.V.set 15 f := rfl
@[simp] theorem State.setFlag_pc (f : Byte) : (s.setFlag f).pc = s.pc := rfl
@[simp] theorem State.setFlag_I (f : Byte) : (s.setFlag f).I = s.I := rfl
@[simp] theorem State.setFlag_sp (f : Byte) : (s.setFlag f).sp = s.sp := rfl
@[simp] theorem State.setFlag_stack (f : Byte) : (s.setFlag f).stack = s.stack := rfl
@[simp] theorem State.setFlag_delayTimer (f : Byte) : (s.setFlag f).delayTimer = s.delayTimer := rfl
@[simp] theorem State.setFlag_soundTimer (f : Byte) : (s.setFlag f).soundTimer = s.soundTimer := rfl
@[simp] theorem State.setFlag_isDrawing (f : Byte) : (s.setFlag f).isDrawing = s.isDrawing := rfl
@[simp] theorem State.setFlag_screen (f : Byte) : (s.setFlag f).screen = s.screen := rfl
@[simp] theorem State.setFlag_keys (f : Byte) : (s.setFlag f).keys = s.keys := rfl
@[simp] theorem State.setFlag_mem (f : Byte) : (s.setFlag f).mem = s.mem := rfl
@[simp] theorem State.setFlag_rnd (f : Byte) : (s.setFlag f).rnd = s.rnd := rfl
@[simp] theorem State.setFlag_rndDraws (f : Byte) : (s.setFlag f).rndDraws = s.rndDraws := rfl

/-! ### `setFlagThenReg` -/

@[simp] theorem State.setFlagThenReg_V (f : Byte) (x : RegName) (v : Byte) : (s.setFlagThenReg f x v).V = (s.V.set 15 f).set x.toNat v x.isLt := rfl
@[simp] theorem State.setFlagThenReg_pc (f : Byte) (x : RegName) (v : Byte) : (s.setFlagThenReg f x v).pc = s.pc := rfl
@[simp] theorem State.setFlagThenReg_I (f : Byte) (x : RegName) (v : Byte) : (s.setFlagThenReg f x v).I = s.I := rfl
@[simp] theorem State.setFlagThenReg_sp (f : Byte) (x : RegName) (v : Byte) : (s.setFlagThenReg f x v).sp = s.sp := rfl
@[simp] theorem State.setFlagThenReg_stack (f : Byte) (x : RegName) (v : Byte) : (s.setFlagThenReg f x v).stack = s.stack := rfl
@[simp] theorem State.setFlagThenReg_delayTimer (f : Byte) (x : RegName) (v : Byte) : (s.setFlagThenReg f x v).delayTimer = s.delayTimer := rfl
@[simp] theorem State.setFlagThenReg_soundTimer (f : Byte) (x : RegName) (v : Byte) : (s.setFlagThenReg f x v).soundTimer = s.soundTimer := rfl
@[simp] theorem State.setFlagThenReg_isDrawing (f : Byte) (x : RegName) (v : Byte) : (s.setFlagThenReg f x v).isDrawing = s.isDrawing := rfl
@[simp] theorem State.setFlagThenReg_screen (f : Byte) (x : RegName) (v : Byte) : (s.setFlagThenReg f x v).screen = s.screen := rfl
@[simp] theorem State.setFlagThenReg_keys (f : Byte) (x : RegName) (v : Byte) : (s.setFlagThenReg f x v).keys = s.keys := rfl
@[simp] theorem State.setFlagThenReg_mem (f : Byte) (x : RegName) (v : Byte) : (s.setFlagThenReg f x v).mem = s.mem := rfl
@[simp] theorem State.setFlagThenReg_rnd (f : Byte) (x : RegName) (v : Byte) : (s.setFlagThenReg f x v).rnd = s.rnd := rfl
@[simp] theorem State.setFlagThenReg_rndDraws (f : Byte) (x : RegName) (v : Byte) : (s.setFlagThenReg f x v).rndDraws = s.rndDraws := rfl

/-! ### `setI` -/

@[simp] theorem State.setI_V (a : Addr) : (s.setI a).V = s.V := rfl
@[simp] theorem State.setI_pc (a : Addr) : (s.setI a).pc = s.pc := rfl
@[simp] theorem State.setI_I (a : Addr) : (s.setI a).I = a := rfl
@[simp] theorem State.setI_sp (a : Addr) : (s.setI a).sp = s.sp := rfl
@[simp] theorem State.setI_stack (a : Addr) : (s.setI a).stack = s.stack := rfl
@[simp] theorem State.setI_delayTimer (a : Addr) : (s.setI a).delayTimer = s.delayTimer := rfl
@[simp] theorem State.setI_soundTimer (a : Addr) : (s.setI a).soundTimer = s.soundTimer := rfl
@[simp] theorem State.setI_isDrawing (a : Addr) : (s.setI a).isDrawing = s.isDrawing := rfl
@[simp] theorem State.setI_screen (a : Addr) : (s.setI a).screen = s.screen := rfl
@[simp] theorem State.setI_keys (a : Addr) : (s.setI a).keys = s.keys := rfl
@[simp] theorem State.setI_mem (a : Addr) : (s.setI a).mem = s.mem := rfl
@[simp] theorem State.setI_rnd (a : Addr) : (s.setI a).rnd = s.rnd := rfl
@[simp] theorem State.setI_rndDraws (a : Addr) : (s.setI a).rndDraws = s.rndDraws := rfl
@[simp] theorem State.setI_reg (a : Addr) (y : RegName) : (s.setI a).reg y = s.reg y := rfl

/-! ### `setDelay` -/

@[simp] theorem State.setDelay_V (v : Byte) : (s.setDelay v).V = s.V := rfl
@[simp] theorem State.setDelay_pc (v : Byte) : (s.setDelay v).pc = s.pc := rfl
@[simp] theorem State.setDelay_I (v : Byte) : (s.setDelay v).I = s.I := rfl
@[simp] theorem State.setDelay_sp (v : Byte) : (s.setDelay v).sp = s.sp := rfl
@[simp] theorem State.setDelay_stack (v : Byte) : (s.setDelay v).stack = s.stack := rfl
@[simp] theorem State.setDelay_delayTimer (v : Byte) : (s.setDelay v).delayTimer = v := rfl
@[simp] theorem State.setDelay_soundTimer (v : Byte) : (s.setDelay v).soundTimer = s.soundTimer := rfl
@[simp] theorem State.setDelay_isDrawing (v : Byte) : (s.setDelay v).isDrawing = s.isDrawing := rfl
@[simp] theorem State.setDelay_screen (v : Byte) : (s.setDelay v).screen = s.screen := rfl
@[simp] theorem State.setDelay_keys (v : Byte) : (s.setDelay v).keys = s.keys := rfl
@[simp] theorem State.setDelay_mem (v : Byte) : (s.setDelay v).mem = s.mem := rfl
@[simp] theorem State.setDelay_rnd (v : Byte) : (s.setDelay v).rnd = s.rnd := rfl
@[simp] theorem State.setDelay_rndDraws (v : Byte) : (s.setDelay v).rndDraws = s.rndDraws := rfl
@[simp] theorem State.setDelay_reg (v : Byte) (y : RegName) : (s.setDelay v).reg y = s.reg y := rfl

/-! ### `setSound` -/

@[simp] theorem State.setSound_V (v : Byte) : (s.setSound v).V = s.V := rfl
@[simp] theorem State.setSound_pc (v : Byte) : (s.setSound v).pc = s.pc := rfl
@[simp] theorem State.setSound_I (v : Byte) : (s.setSound v).I = s.I := rfl
@[simp] theorem State.setSound_sp (v : Byte) : (s.setSound v).sp = s.sp := rfl
@[simp] theorem State.setSound_stack (v : Byte) : (s.setSound v).stack = s.stack := rfl
@[simp] theorem State.setSound_delayTimer (v : Byte) : (s.setSound v).delayTimer = s.delayTimer := rfl
@[simp] theorem State.setSound_soundTimer (v : Byte) : (s.setSound v).soundTimer = v := rfl
@[simp] theorem State.setSound_isDrawing (v : Byte) : (s.setSound v).isDrawing = s.isDrawing := rfl
@[simp] theorem State.setSound_screen (v : Byte) : (s.setSound v).screen = s.screen := rfl
@[simp] theorem State.setSound_keys (v : Byte) : (s.setSound v).keys = s.keys := rfl
@[simp] theorem State.setSound_mem (v : Byte) : (s.setSound v).mem = s.mem := rfl
@[simp] theorem State.setSound_rnd (v : Byte) : (s.setSound v).rnd = s.rnd := rfl
@[simp] theorem State.setSound_rndDraws (v : Byte) : (s.setSound v).rndDraws = s.rndDraws := rfl
@[simp] theorem State.setSound_reg (v : Byte) (y : RegName) : (s.setSound v).reg y = s.reg y := rfl

/-! ### `setDrawing` -/

@[simp] theorem State.setDrawing_V (b : Bool) : (s.setDrawing b).V = s.V := rfl
@[simp] theorem State.setDrawing_pc (b : Bool) : (s.setDrawing b).pc = s.pc := rfl
@[simp] theorem State.setDrawing_I (b : Bool) : (s.setDrawing b).I = s.I := rfl
@[simp] theorem State.setDrawing_sp (b : Bool) : (s.setDrawing b).sp = s.sp := rfl
@[simp] theorem State.setDrawing_stack (b : Bool) : (s.setDrawing b).stack = s.stack := rfl
@[simp] theorem State.setDrawing_delayTimer (b : Bool) : (s.setDrawing b).delayTimer = s.delayTimer := rfl
@[simp] theorem State.setDrawing_soundTimer (b : Bool) : (s.setDrawing b).soundTimer = s.soundTimer := rfl
@[simp] theorem State.setDrawing_isDrawing (b : Bool) : (s.setDrawing b).isDrawing = b := rfl
@[simp] theorem State.setDrawing_screen (b : Bool) : (s.setDrawing b).screen = s.screen := rfl
@[simp] theorem State.setDrawing_keys (b : Bool) : (s.setDrawing b).keys = s.keys := rfl
@[simp] theorem State.setDrawing_mem (b : Bool) : (s.setDrawing b).mem = s.mem := rfl
@[simp] theorem State.setDrawing_rnd (b : Bool) : (s.setDrawing b).rnd = s.rnd := rfl
@[simp] theorem State.setDrawing_rndDraws (b : Bool) : (s.setDrawing b).rndDraws = s.rndDraws := rfl
@[simp] theorem State.setDrawing_reg (b : Bool) (y : RegName) : (s.setDrawing b).reg y = s.reg y := rfl

/-! ### `setScreen` -/

@[simp] theorem State.setScreen_V (scr : Screen) : (s.setScreen scr).V = s.V := rfl
@[simp] theorem State.setScreen_pc (scr : Screen) : (s.setScreen scr).pc = s.pc := rfl
@[simp] theorem State.setScreen_I (scr : Screen) : (s.setScreen scr).I = s.I := rfl
@[simp] theorem State.setScreen_sp (scr : Screen) : (s.setScreen scr).sp = s.sp := rfl
@[simp] theorem State.setScreen_stack (scr : Screen) : (s.setScreen scr).stack = s.stack := rfl
@[simp] theorem State.setScreen_delayTimer (scr : Screen) : (s.setScreen scr).delayTimer = s.delayTimer := rfl
@[simp] theorem State.setScreen_soundTimer (scr : Screen) : (s.setScreen scr).soundTimer = s.soundTimer := rfl
@[simp] theorem State.setScreen_isDrawing (scr : Screen) : (s.setScreen scr).isDrawing = s.isDrawing := rfl
@[simp] theorem State.setScreen_screen (scr : Screen) : (s.setScreen scr).screen = scr := rfl
@[simp] theorem State.setScreen_keys (scr : Screen) : (s.setScreen scr).keys = s.keys := rfl
@[simp] theorem State.setScreen_mem (scr : Screen) : (s.setScreen scr).mem = s.mem := rfl
@[simp] theorem State.setScreen_rnd (scr : Screen) : (s.setScreen scr).rnd = s.rnd := rfl
@[simp] theorem State.setScreen_rndDraws (scr : Screen) : (s.setScreen scr).rndDraws = s.rndDraws := rfl
@[simp] theorem State.setScreen_reg (scr : Screen) (y : RegName) : (s.setScreen scr).reg y = s.reg y := rfl

/-! ### `setMem` -/

@[simp] theorem State.setMem_V (m : Memory) : (s.setMem m).V = s.V := rfl
@[simp] theorem State.setMem_pc (m : Memory) : (s.setMem m).pc = s.pc := rfl
@[simp] theorem State.setMem_I (m : Memory) : (s.setMem m).I = s.I := rfl
@[simp] theorem State.setMem_sp (m : Memory) : (s.setMem m).sp = s.sp := rfl
@[simp] theorem State.setMem_stack (m : Memory) : (s.setMem m).stack = s.stack := rfl
@[simp] theorem State.setMem_delayTimer (m : Memory) : (s.setMem m).delayTimer = s.delayTimer := rfl
@[simp] theorem State.setMem_soundTimer (m : Memory) : (s.setMem m).soundTimer = s.soundTimer := rfl
@[simp] theorem State.setMem_isDrawing (m : Memory) : (s.setMem m).isDrawing = s.isDrawing := rfl
@[simp] theorem State.setMem_screen (m : Memory) : (s.setMem m).screen = s.screen := rfl
@[simp] theorem State.setMem_keys (m : Memory) : (s.setMem m).keys = s.keys := rfl
@[simp] theorem State.setMem_mem (m : Memory) : (s.setMem m).mem = m := rfl
@[simp] theorem State.setMem_rnd (m : Memory) : (s.setMem m).rnd = s.rnd := rfl
@[simp] theorem State.setMem_rndDraws (m : Memory) : (s.setMem m).rndDraws = s.rndDraws := rfl
@[simp] theorem State.setMem_reg (m : Memory) (y : RegName) : (s.setMem m).reg y = s.reg y := rfl

/-! ### `setKey` -/

@[simp] theorem State.setKey_V (k : Fin 16) (b : Bool) : (s.setKey k b).V = s.V := rfl
@[simp] theorem State.setKey_pc (k : Fin 16) (b : Bool) : (s.setKey k b).pc = s.pc := rfl
@[simp] theorem State.setKey_I (k : Fin 16) (b : Bool) : (s.setKey k b).I = s.I := rfl
@[simp] theorem State.setKey_sp (k : Fin 16) (b : Bool) : (s.setKey k b).sp = s.sp := rfl
@[simp] theorem State.setKey_stack (k : Fin 16) (b : Bool) : (s.setKey k b).stack = s.stack := rfl
@[simp] theorem State.setKey_delayTimer (k : Fin 16) (b : Bool) : (s.setKey k b).delayTimer = s.delayTimer := rfl
@[simp] theorem State.setKey_soundTimer (k : Fin 16) (b : Bool) : (s.setKey k b).soundTimer = s.soundTimer := rfl
@[simp] theorem State.setKey_isDrawing (k : Fin 16) (b : Bool) : (s.setKey k b).isDrawing = s.isDrawing := rfl
@[simp] theorem State.setKey_screen (k : Fin 16) (b : Bool) : (s.setKey k b).screen = s.screen := rfl
@[simp] theorem State.setKey_keys (k : Fin 16) (b : Bool) : (s.setKey k b).keys = s.keys.set k.val b k.isLt := rfl
@[simp] theorem State.setKey_mem (k : Fin 16) (b : Bool) : (s.setKey k b).mem = s.mem := rfl
@[simp] theorem State.setKey_rnd (k : Fin 16) (b : Bool) : (s.setKey k b).rnd = s.rnd := rfl
@[simp] theorem State.setKey_rndDraws (k : Fin 16) (b : Bool) : (s.setKey k b).rndDraws = s.rndDraws := rfl
@[simp] theorem State.setKey_reg (k : Fin 16) (b : Bool) (y : RegName) : (s.setKey k b).reg y = s.reg y := rfl

/-! ### `setPc` -/

@[simp] theorem State.setPc_V (a : Addr) : (s.setPc a).V = s.V := rfl
@[simp] theorem State.setPc_pc (a : Addr) : (s.setPc a).pc = a := rfl
@[simp] theorem State.setPc_I (a : Addr) : (s.setPc a).I = s.I := rfl
@[simp] theorem State.setPc_sp (a : Addr) : (s.setPc a).sp = s.sp := rfl
@[simp] theorem State.setPc_stack (a : Addr) : (s.setPc a).stack = s.stack := rfl
@[simp] theorem State.setPc_delayTimer (a : Addr) : (s.setPc a).delayTimer = s.delayTimer := rfl
@[simp] theorem State.setPc_soundTimer (a : Addr) : (s.setPc a).soundTimer = s.soundTimer := rfl
@[simp] theorem State.setPc_isDrawing (a : Addr) : (s.setPc a).isDrawing = s.isDrawing := rfl
@[simp] theorem State.setPc_screen (a : Addr) : (s.setPc a).screen = s.screen := rfl
@[simp] theorem State.setPc_keys (a : Addr) : (s.setPc a).keys = s.keys := rfl
@[simp] theorem State.setPc_mem (a : Addr) : (s.setPc a).mem = s.mem := rfl
@[simp] theorem State.setPc_rnd (a : Addr) : (s.setPc a).rnd = s.rnd := rfl
@[simp] theorem State.setPc_rndDraws (a : Addr) : (s.setPc a).rndDraws = s.rndDraws := rfl
@[simp] theorem State.setPc_reg (a : Addr) (y : RegName) : (s.setPc a).reg y = s.reg y := rfl

/-! ### `preIncrement` -/

@[simp] theorem State.preIncrement_V : (s.preIncrement).V = s.V := rfl
@[simp] theorem State.preIncrement_pc : (s.preIncrement).pc = s.pc + 2 := rfl
@[simp] theorem State.preIncrement_I : (s.preIncrement).I = s.I := rfl
@[simp] theorem State.preIncrement_sp : (s.preIncrement).sp = s.sp := rfl
@[simp] theorem State.preIncrement_stack : (s.preIncrement).stack = s.stack := rfl
@[simp] theorem State.preIncrement_delayTimer : (s.preIncrement).delayTimer = s.delayTimer := rfl
@[simp] theorem State.preIncrement_soundTimer : (s.preIncrement).soundTimer = s.soundTimer := rfl
@[simp] theorem State.preIncrement_isDrawing : (s.preIncrement).isDrawing = s.isDrawing := rfl
@[simp] theorem State.preIncrement_screen : (s.preIncrement).screen = s.screen := rfl
@[simp] theorem State.preIncrement_keys : (s.preIncrement).keys = s.keys := rfl
@[simp] theorem State.preIncrement_mem : (s.preIncrement).mem = s.mem := rfl
@[simp] theorem State.preIncrement_rnd : (s.preIncrement).rnd = s.rnd := rfl
@[simp] theorem State.preIncrement_rndDraws : (s.preIncrement).rndDraws = s.rndDraws := rfl
@[simp] theorem State.preIncrement_reg (y : RegName) : (s.preIncrement).reg y = s.reg y := rfl

/-! ### `skip` -/

@[simp] theorem State.skip_V : (s.skip).V = s.V := rfl
@[simp] theorem State.skip_pc : (s.skip).pc = s.pc + 2 := rfl
@[simp] theorem State.skip_I : (s.skip).I = s.I := rfl
@[simp] theorem State.skip_sp : (s.skip).sp = s.sp := rfl
@[simp] theorem State.skip_stack : (s.skip).stack = s.stack := rfl
@[simp] theorem State.skip_delayTimer : (s.skip).delayTimer = s.delayTimer := rfl
@[simp] theorem State.skip_soundTimer : (s.skip).soundTimer = s.soundTimer := rfl
@[simp] theorem State.skip_isDrawing : (s.skip).isDrawing = s.isDrawing := rfl
@[simp] theorem State.skip_screen : (s.skip).screen = s.screen := rfl
@[simp] theorem State.skip_keys : (s.skip).keys = s.keys := rfl
@[simp] theorem State.skip_mem : (s.skip).mem = s.mem := rfl
@[simp] theorem State.skip_rnd : (s.skip).rnd = s.rnd := rfl
@[simp] theorem State.skip_rndDraws : (s.skip).rndDraws = s.rndDraws := rfl
@[simp] theorem State.skip_reg (y : RegName) : (s.skip).reg y = s.reg y := rfl

/-! ### `presentRnd` -/

@[simp] theorem State.presentRnd_V (r : Byte) : (s.presentRnd r).V = s.V := rfl
@[simp] theorem State.presentRnd_pc (r : Byte) : (s.presentRnd r).pc = s.pc := rfl
@[simp] theorem State.presentRnd_I (r : Byte) : (s.presentRnd r).I = s.I := rfl
@[simp] theorem State.presentRnd_sp (r : Byte) : (s.presentRnd r).sp = s.sp := rfl
@[simp] theorem State.presentRnd_stack (r : Byte) : (s.presentRnd r).stack = s.stack := rfl
@[simp] theorem State.presentRnd_delayTimer (r : Byte) : (s.presentRnd r).delayTimer = s.delayTimer := rfl
@[simp] theorem State.presentRnd_soundTimer (r : Byte) : (s.presentRnd r).soundTimer = s.soundTimer := rfl
@[simp] theorem State.presentRnd_isDrawing (r : Byte) : (s.presentRnd r).isDrawing = s.isDrawing := rfl
@[simp] theorem State.presentRnd_screen (r : Byte) : (s.presentRnd r).screen = s.screen := rfl
@[simp] theorem State.presentRnd_keys (r : Byte) : (s.presentRnd r).keys = s.keys := rfl
@[simp] theorem State.presentRnd_mem (r : Byte) : (s.presentRnd r).mem = s.mem := rfl
@[simp] theorem State.presentRnd_rnd (r : Byte) : (s.presentRnd r).rnd = some r := rfl
@[simp] theorem State.presentRnd_rndDraws (r : Byte) : (s.presentRnd r).rndDraws = s.rndDraws := rfl
@[simp] theorem State.presentRnd_reg (r : Byte) (y : RegName) : (s.presentRnd r).reg y = s.reg y := rfl

/-! ### `dropRnd` -/

@[simp] theorem State.dropRnd_V : (s.dropRnd).V = s.V := rfl
@[simp] theorem State.dropRnd_pc : (s.dropRnd).pc = s.pc := rfl
@[simp] theorem State.dropRnd_I : (s.dropRnd).I = s.I := rfl
@[simp] theorem State.dropRnd_sp : (s.dropRnd).sp = s.sp := rfl
@[simp] theorem State.dropRnd_stack : (s.dropRnd).stack = s.stack := rfl
@[simp] theorem State.dropRnd_delayTimer : (s.dropRnd).delayTimer = s.delayTimer := rfl
@[simp] theorem State.dropRnd_soundTimer : (s.dropRnd).soundTimer = s.soundTimer := rfl
@[simp] theorem State.dropRnd_isDrawing : (s.dropRnd).isDrawing = s.isDrawing := rfl
@[simp] theorem State.dropRnd_screen : (s.dropRnd).screen = s.screen := rfl
@[simp] theorem State.dropRnd_keys : (s.dropRnd).keys = s.keys := rfl
@[simp] theorem State.dropRnd_mem : (s.dropRnd).mem = s.mem := rfl
@[simp] theorem State.dropRnd_rnd : (s.dropRnd).rnd = none := rfl
@[simp] theorem State.dropRnd_rndDraws : (s.dropRnd).rndDraws = s.rndDraws := rfl
@[simp] theorem State.dropRnd_reg (y : RegName) : (s.dropRnd).reg y = s.reg y := rfl

/-! ### `retry` -/

@[simp] theorem State.retry_V : (s.retry).V = s.V := rfl
@[simp] theorem State.retry_pc : (s.retry).pc = s.pc - 2 := rfl
@[simp] theorem State.retry_I : (s.retry).I = s.I := rfl
@[simp] theorem State.retry_sp : (s.retry).sp = s.sp := rfl
@[simp] theorem State.retry_stack : (s.retry).stack = s.stack := rfl
@[simp] theorem State.retry_delayTimer : (s.retry).delayTimer = s.delayTimer := rfl
@[simp] theorem State.retry_soundTimer : (s.retry).soundTimer = s.soundTimer := rfl
@[simp] theorem State.retry_isDrawing : (s.retry).isDrawing = s.isDrawing := rfl
@[simp] theorem State.retry_screen : (s.retry).screen = s.screen := rfl
@[simp] theorem State.retry_keys : (s.retry).keys = s.keys := rfl
@[simp] theorem State.retry_mem : (s.retry).mem = s.mem := rfl
@[simp] theorem State.retry_rnd : (s.retry).rnd = s.rnd := rfl
@[simp] theorem State.retry_rndDraws : (s.retry).rndDraws = s.rndDraws := rfl
@[simp] theorem State.retry_reg (y : RegName) : (s.retry).reg y = s.reg y := rfl

end Sys2Proof.Machine
end

