-- ==== Sys2Proof/Laws/Ops.lean ====
section
/-! SUPPORT. What each shared operation does, once: registers, runs of registers, the stack, the keys, the random
input, the flags. -/

namespace Sys2Proof.Machine

/-! ### Registers -/

@[simp] theorem State.reg_setReg_same (s : State) (x : RegName) (v : Byte) : (s.setReg x v).reg x = v := by
  simp [State.reg]

theorem State.reg_setReg_other (s : State) (x y : RegName) (v : Byte) (h : y ≠ x) :
    (s.setReg x v).reg y = s.reg y := by
  have hne : x.toNat ≠ y.toNat := fun e => h (BitVec.eq_of_toNat_eq e.symm)
  simp [State.reg, hne]

theorem State.reg_setReg (s : State) (x y : RegName) (v : Byte) :
    (s.setReg x v).reg y = if y = x then v else s.reg y := by
  by_cases h : y = x
  · subst h; simp
  · simp [h, State.reg_setReg_other s x y v h]

theorem State.reg_setFlag (s : State) (f : Byte) (y : RegName) :
    (s.setFlag f).reg y = if y = 0xF then f else s.reg y := State.reg_setReg s 0xF y f

/-- A flag and a result: the result stays where both go to VF (42_alu.md R131). -/
theorem State.reg_setFlagThenReg (s : State) (f : Byte) (x : RegName) (v : Byte) (y : RegName) :
    (s.setFlagThenReg f x v).reg y = if y = x then v else if y = 0xF then f else s.reg y := by
  simp only [State.setFlagThenReg, State.reg_setReg, State.reg_setFlag]

@[simp] theorem State.regsUpTo_length (s : State) (x : RegName) : (s.regsUpTo x).length = x.toNat + 1 := by
  simp [State.regsUpTo]

theorem State.regsUpTo_getElem (s : State) (x : RegName) (k : Nat) (h : k < (s.regsUpTo x).length) :
    (s.regsUpTo x)[k] = s.reg (BitVec.ofNat 4 k) := by
  simp [State.regsUpTo]

/-- A run of registers loaded: register `k + j` gets the run's byte `j`, the others keep theirs. -/
theorem State.reg_setRegsFrom (s : State) (k : Nat) (bs : List Byte) (y : RegName) (hk : k + bs.length ≤ 16) :
    (s.setRegsFrom k bs).reg y =
      if h : k ≤ y.toNat ∧ y.toNat < k + bs.length then bs[y.toNat - k]'(by omega) else s.reg y := by
  induction bs generalizing s k with
  | nil => simp [State.setRegsFrom] <;> omega
  | cons v bs ih =>
    simp only [List.length_cons] at hk
    have hk16 : k % 16 = k := Nat.mod_eq_of_lt (by omega)
    have hname : y = BitVec.ofNat 4 k ↔ y.toNat = k := by
      rw [← BitVec.toNat_inj, BitVec.toNat_ofNat, hk16]
    simp only [State.setRegsFrom, ih _ (k + 1) (by omega), State.reg_setReg, hname, List.length_cons]
    by_cases hy : y.toNat = k
    · have h1 : ¬(k + 1 ≤ y.toNat ∧ y.toNat < k + 1 + bs.length) := by omega
      have h2 : k ≤ y.toNat ∧ y.toNat < k + (bs.length + 1) := by omega
      rw [dif_neg h1, dif_pos h2, if_pos hy]
      simp [hy]
    · by_cases hin : k + 1 ≤ y.toNat ∧ y.toNat < k + 1 + bs.length
      · have h2 : k ≤ y.toNat ∧ y.toNat < k + (bs.length + 1) := by omega
        have h3 : y.toNat - k = (y.toNat - (k + 1)) + 1 := by omega
        rw [dif_pos hin, dif_pos h2]
        simp [h3]
      · have h2 : ¬(k ≤ y.toNat ∧ y.toNat < k + (bs.length + 1)) := by omega
        rw [dif_neg hin, dif_neg h2, if_neg hy]

/-- A run of registers loaded changes the registers only. -/
theorem State.setRegsFrom_eq (s : State) (k : Nat) (bs : List Byte) :
    s.setRegsFrom k bs = { s with V := (s.setRegsFrom k bs).V } := by
  induction bs generalizing s k with
  | nil => rfl
  | cons v bs ih =>
    simp only [State.setRegsFrom]
    rw [ih]
    rfl

@[simp] theorem State.setRegsFrom_pc (s : State) (k : Nat) (bs : List Byte) : (s.setRegsFrom k bs).pc = s.pc := by
  rw [State.setRegsFrom_eq]

@[simp] theorem State.setRegsFrom_I (s : State) (k : Nat) (bs : List Byte) : (s.setRegsFrom k bs).I = s.I := by
  rw [State.setRegsFrom_eq]

@[simp] theorem State.setRegsFrom_mem (s : State) (k : Nat) (bs : List Byte) :
    (s.setRegsFrom k bs).mem = s.mem := by
  rw [State.setRegsFrom_eq]

/-! ### The return stack -/

theorem State.pushPc_some (s : State) (h : s.sp.val < 16) :
    s.pushPc = some { s with stack := s.stack.set s.sp.val s.pc h, sp := ⟨s.sp.val + 1, by omega⟩ } := by
  simp [State.pushPc, h]

theorem State.pushPc_none (s : State) (h : s.sp.val = 16) : s.pushPc = none := by
  simp [State.pushPc, h]

theorem State.popPc_some (s : State) (h : 0 < s.sp.val) :
    s.popPc =
      some { s with pc := s.stack[s.sp.val - 1]'(by omega), sp := ⟨s.sp.val - 1, by omega⟩ } := by
  simp [State.popPc, h]

theorem State.popPc_none (s : State) (h : s.sp.val = 0) : s.popPc = none := by
  simp [State.popPc, h]

/-! ### The random input -/

theorem State.takeRnd_presented (s : State) (r : Byte) (h : s.rnd = some r) : s.takeRnd = (r, s) := by
  simp [State.takeRnd, h]

theorem State.takeRnd_free (s : State) (h : s.rnd = none) :
    s.takeRnd = (Config.freeRnd s.rndDraws, { s with rndDraws := s.rndDraws + 1 }) := by
  simp [State.takeRnd, h]

/-- A draw changes the counter of free draws only. -/
theorem State.takeRnd_state (s : State) : s.takeRnd.2 = { s with rndDraws := s.takeRnd.2.rndDraws } := by
  unfold State.takeRnd
  split <;> rfl

/-- A later byte for the same cycle replaces an earlier one. -/
@[simp] theorem State.presentRnd_presentRnd (s : State) (a b : Byte) :
    (s.presentRnd a).presentRnd b = s.presentRnd b := rfl

@[simp] theorem State.dropRnd_presentRnd (s : State) (a : Byte) : (s.presentRnd a).dropRnd = s.dropRnd := rfl

@[simp] theorem State.takeRnd_reg (s : State) (y : RegName) : s.takeRnd.2.reg y = s.reg y := by
  rw [State.takeRnd_state]; rfl

@[simp] theorem State.takeRnd_mem (s : State) : s.takeRnd.2.mem = s.mem := by rw [State.takeRnd_state]

/-! ### Flags -/

@[simp] theorem flagOf_true : flagOf true = 1 := rfl

@[simp] theorem flagOf_false : flagOf false = 0 := rfl

theorem flagOf_eq_one_iff (c : Bool) : flagOf c = 1 ↔ c = true := by cases c <;> simp

theorem flagOf_le_one (c : Bool) : (flagOf c).toNat ≤ 1 := by cases c <;> simp

end Sys2Proof.Machine
end

