-- ==== Sys2Proof/Laws/Cycle.lean ====
section
/-! SUPPORT. Everything a fetch and a cycle can do, once, and that a placed word is the one fetched. -/

namespace Sys2Proof.Machine

/-- Below 0xFFF the fetch gives the two bytes at `pc`, big-endian (40_fetch_execute.md R91). -/
theorem State.fetchWord_ok (s : State) (h : s.pc ≠ 0xFFF) :
    s.fetchWord = .ok (wordOfBytes (s.mem.read s.pc.toNat) (s.mem.read (s.pc.toNat + 1))) := by
  have hlt := s.pc.isLt
  have hne : s.pc.toNat ≠ 0xFFF := fun e => h (BitVec.eq_of_toNat_eq e)
  unfold State.fetchWord
  rw [memRead_ok _ _ (by omega), memRead_ok _ _ (by omega)]

/-- At 0xFFF the fetch fails at 0x1000 (40_fetch_execute.md R91). -/
theorem State.fetchWord_top (s : State) (h : s.pc = 0xFFF) : s.fetchWord = .error 0x1000 := by
  have hpc : s.pc.toNat = 0xFFF := by rw [h]; rfl
  unfold State.fetchWord
  rw [hpc, memRead_ok _ _ (by omega), memRead_error _ _ (by omega)]

/-- Everything a fetch can do. -/
theorem State.fetchWord_cases (s : State) :
    (s.pc = 0xFFF ∧ s.fetchWord = .error 0x1000) ∨
      (s.pc ≠ 0xFFF ∧
        s.fetchWord = .ok (wordOfBytes (s.mem.read s.pc.toNat) (s.mem.read (s.pc.toNat + 1)))) := by
  by_cases h : s.pc = 0xFFF
  · exact .inl ⟨h, s.fetchWord_top h⟩
  · exact .inr ⟨h, s.fetchWord_ok h⟩

/-- A word that is no instruction is rejected as itself (30_encoding.md R77). -/
theorem decode_error_eq (oc : Word) (r : DecodeReject) (h : decode oc = .error r) : r = .unrecognized oc := by
  unfold decode decodeGroup0 decodeGroup8 decodeGroupE decodeGroupF at h
  repeat' split at h
  all_goals first
    | exact (Except.error.inj h).symm
    | exact absurd h (by simp)

@[simp] theorem endCycle_next (t : State) : endCycle (.next t) = .next t.dropRnd := rfl

@[simp] theorem endCycle_fault (f : Fault) : endCycle (.fault f) = .fault f := rfl

@[simp] theorem endCycle_refused (r : Refusal) : endCycle (.refused r) = .refused r := rfl

/-- The end of a cycle answers next exactly when its execute phase did, with the `rnd` byte gone. -/
theorem endCycle_eq_next_iff (o : Host.Outcome State Fault Refusal) (t : State) :
    endCycle o = .next t ↔ ∃ u, o = .next u ∧ t = u.dropRnd := by
  cases o <;> simp [eq_comm]

/-- The end of a cycle changes no fault. -/
theorem endCycle_eq_fault_iff (o : Host.Outcome State Fault Refusal) (f : Fault) :
    endCycle o = .fault f ↔ o = .fault f := by
  cases o <;> simp

@[simp] theorem CycleResult.toHost_ofExec (o : Host.Outcome State Fault Refusal) :
    (CycleResult.ofExec o).toHost = o := by cases o <;> rfl

/-- The fetch does not look at the `rnd` input. -/
@[simp] theorem State.fetchWord_presentRnd (s : State) (r : Byte) : (s.presentRnd r).fetchWord = s.fetchWord := rfl

/-- Everything a cycle can do: the fetch faults, or an instruction is executed on the state whose `pc` is already
past it, or the word is unrecognized (40_fetch_execute.md R90). -/
theorem cycle_cases (policy : UnknownOpcodePolicy) (s : State) :
    (s.pc = 0xFFF ∧ cycle policy s = .fault (.outOfRangeAccess s.pc none 0x1000)) ∨
      (∃ oc i, s.fetchWord = .ok oc ∧ decode oc = .ok i ∧
        cycle policy s = .ofExec (endCycle (exec i s.preIncrement))) ∨
      (∃ oc, s.fetchWord = .ok oc ∧ decode oc = .error (.unrecognized oc) ∧
        cycle policy s = unrecognizedWord policy oc s) := by
  rcases s.fetchWord_cases with ⟨h, hf⟩ | ⟨-, hf⟩
  · exact .inl ⟨h, by simp [cycle, hf]⟩
  · refine .inr ?_
    cases hd : decode (wordOfBytes (s.mem.read s.pc.toNat) (s.mem.read (s.pc.toNat + 1))) with
    | ok i => exact .inl ⟨_, i, hf, hd, by simp [cycle, hf, hd]⟩
    | error r =>
      obtain rfl := decode_error_eq _ _ hd
      exact .inr ⟨_, hf, hd, by simp [cycle, hf, hd]⟩

/-- The step at an instruction: its execute phase, then the end of the cycle. -/
theorem step_of_nextInstr (s : State) (i : Instr) (h : s.NextInstr i) :
    step s = endCycle (exec i s.preIncrement) := by
  obtain ⟨oc, hf, hd⟩ := h
  simp [step, cycle, hf, hd]

/-- Everything a step that goes on can have done: executed the instruction at `pc`, or passed an unrecognized word;
after either no `rnd` byte is left. -/
theorem step_next_cases (s t : State) (h : step s = .next t) :
    (∃ i u, s.NextInstr i ∧ exec i s.preIncrement = .next u ∧ t = u.dropRnd) ∨
      (∃ oc, s.fetchWord = .ok oc ∧ decode oc = .error (.unrecognized oc)) ∧ t = s.preIncrement.dropRnd := by
  rcases cycle_cases Config.unknownOpcodePolicy s with ⟨-, e⟩ | ⟨oc, i, hf, hd, e⟩ | ⟨oc, hf, hd, e⟩
  · rw [step, e] at h
    cases h
  · rw [step, e, CycleResult.toHost_ofExec, endCycle_eq_next_iff] at h
    obtain ⟨u, hu, rfl⟩ := h
    exact .inl ⟨i, u, ⟨oc, hf, hd⟩, hu, rfl⟩
  · rw [step, e] at h
    cases h
    exact .inr ⟨⟨oc, hf, hd⟩, rfl⟩

/-- The bytes of a placed word are read back where they were placed. -/
theorem State.fetchWord_withFetchWord (s : State) (nbits w : Nat) :
    (s.withFetchWord nbits w).fetchWord = .ok (tableWord nbits w) := by
  have hpc : (s.withFetchWord nbits w).pc ≠ 0xFFF := by
    show (if s.pc = 0xFFF then s.setPc 0x200 else s).pc ≠ 0xFFF
    by_cases h : s.pc = 0xFFF
    · rw [if_pos h, State.setPc_pc]; decide
    · rw [if_neg h]; exact h
  rw [State.fetchWord_ok _ hpc, ← wordOfBytes_bytesOfWord (tableWord nbits w)]
  simp only [State.withFetchWord, State.setMem_mem, State.setMem_pc, Memory.read_writeAll]
  simp [wordOfBytes_bytesOfWord]

end Sys2Proof.Machine
end

