-- ==== Sys2Proof/Laws/Operands.lean ====
section
/-! SUPPORT. What the computed operands are worth, as numbers, and what the key lookups find. -/

namespace Sys2Proof.Machine

@[simp] theorem zextAddr_toNat (v : Byte) : (zextAddr v).toNat = v.toNat := by
  have := v.isLt
  rw [zextAddr, BitVec.toNat_setWidth]
  omega

theorem jumpTarget_toNat (nnn : Addr) (v0 : Byte) :
    (jumpTarget nnn v0).toNat = (nnn.toNat + v0.toNat) % 4096 := by
  simp [jumpTarget, BitVec.toNat_add]

theorem indexPlus_toNat (i : Addr) (v : Byte) : (indexPlus i v).toNat = (i.toNat + v.toNat) % 4096 := by
  simp [indexPlus, BitVec.toNat_add]

/-- The glyph address never wraps (43_index_memory.md R162). -/
theorem glyphAddr_toNat (v : Byte) : (glyphAddr v).toNat = v.toNat * 5 := by
  have := v.isLt
  simp [glyphAddr, BitVec.toNat_mul]
  omega

theorem indexAfterBulk_toNat (i : Addr) (x : RegName) :
    (indexAfterBulk i x).toNat = (i.toNat + x.toNat + 1) % 4096 := by
  have := x.isLt
  simp [indexAfterBulk, BitVec.toNat_add]

@[simp] theorem bcdDigits_length (v : Byte) : (bcdDigits v).length = 3 := rfl

/-- A key of the array is as the host set it (45_timers_input.md R200). -/
theorem State.keyPressed_in_range (s : State) (k : Byte) (h : k.toNat < 16) :
    s.keyPressed k = s.keys[k.toNat]'h := by
  simp [State.keyPressed, h]

/-- An index past the array is not pressed (45_timers_input.md R200). -/
theorem State.keyPressed_out_of_range (s : State) (k : Byte) (h : 16 ≤ k.toNat) : s.keyPressed k = false := by
  unfold State.keyPressed
  rw [dif_neg (by omega)]

theorem firstPressed_none (l : List Bool) (k : Nat) : firstPressed l k = none ↔ ∀ b ∈ l, b = false := by
  induction l generalizing k with
  | nil => simp [firstPressed]
  | cons b l ih => cases b <;> simp [firstPressed, ih]

theorem firstPressed_some (l : List Bool) (k j : Nat) (h : firstPressed l k = some j) :
    ∃ i, ∃ hi : i < l.length, j = k + i ∧ l[i] = true ∧ ∀ i', (hi' : i' < i) → l[i'] = false := by
  induction l generalizing k with
  | nil => simp [firstPressed] at h
  | cons b l ih =>
    cases b
    · obtain ⟨i, hi, hj, ht, hlow⟩ := ih (k + 1) (by simpa [firstPressed] using h)
      refine ⟨i + 1, by simpa using hi, by omega, by simpa using ht, ?_⟩
      intro i' hi'
      cases i' with
      | zero => rfl
      | succ i' => simpa using hlow i' (by omega)
    · refine ⟨0, by simp, ?_, rfl, by intro i' hi'; omega⟩
      simpa [firstPressed] using h.symm

/-- No key is found exactly when none is pressed. -/
theorem State.lowestKey_none (s : State) : s.lowestKey = none ↔ ∀ k : Fin 16, s.keys[k.val] = false := by
  simp only [State.lowestKey, Option.map_eq_none_iff, firstPressed_none]
  constructor
  · intro h k
    exact h _ (by simp)
  · intro h b hb
    obtain ⟨i, hi, rfl⟩ := List.getElem_of_mem hb
    simpa using h ⟨i, by simpa using hi⟩

/-- The key found is pressed and every lower one is not (45_timers_input.md R204). -/
theorem State.lowestKey_some (s : State) (k : Byte) (h : s.lowestKey = some k) :
    ∃ hk : k.toNat < 16, s.keys[k.toNat] = true ∧ ∀ j, (hj : j < k.toNat) → s.keys[j] = false := by
  simp only [State.lowestKey, Option.map_eq_some_iff] at h
  obtain ⟨j, hj, rfl⟩ := h
  obtain ⟨i, hi, hji, ht, hlow⟩ := firstPressed_some _ _ _ hj
  have hi16 : i < 16 := by simpa using hi
  have hn : (BitVec.ofNat 8 j).toNat = i := by
    rw [BitVec.toNat_ofNat, hji, Nat.zero_add]
    exact Nat.mod_eq_of_lt (by omega)
  refine ⟨by omega, by simpa [hn] using ht, ?_⟩
  intro j' hj'
  simpa using hlow j' (by omega)

end Sys2Proof.Machine
end

