-- ==== Sys2Proof/Laws/PerInstr.lean ====
section
/-! SUPPORT. The laws stated for every instruction, one lemma per constructor. -/

/-- An instruction's encoding fits its row of the opcode map (30_encoding.md R75): its row is a row of the map, and
`(encode i & mask) == match`. -/
def Sys2Proof.Laws.EncodingFitsItsRow.Statement (i : Sys2Proof.Instr) : Prop :=
  i.row ∈ Sys2Proof.opcodeMap ∧ i.row.selects (encode i) = true

namespace Sys2Proof.Laws

/-- A row of the map whose fixed bits an encoding shows. -/
theorem encoding_fits_of_row (i : Instr) (r : OpcodeRow) (hr : i.row = r) (hm : r ∈ opcodeMap)
    (he : encode i &&& r.mask = r.matchBits) : EncodingFitsItsRow.Statement i :=
  ⟨hr ▸ hm, by simp [OpcodeRow.selects, hr, he]⟩

theorem EncodingFitsItsRow.cls (u : Nibble) : EncodingFitsItsRow.Statement (.cls u) :=
  encoding_fits_of_row _ ⟨0x00E0, 0xF0FF⟩ rfl (by decide) ((encodeGXNN_and_F0FF ..).trans (by decide))

theorem EncodingFitsItsRow.ret (u : Nibble) : EncodingFitsItsRow.Statement (.ret u) :=
  encoding_fits_of_row _ ⟨0x00EE, 0xF0FF⟩ rfl (by decide) ((encodeGXNN_and_F0FF ..).trans (by decide))

theorem EncodingFitsItsRow.jp (nnn : Addr) : EncodingFitsItsRow.Statement (.jp nnn) :=
  encoding_fits_of_row _ ⟨0x1000, 0xF000⟩ rfl (by decide) ((encodeGNNN_and_F000 ..).trans (by decide))

theorem EncodingFitsItsRow.call (nnn : Addr) : EncodingFitsItsRow.Statement (.call nnn) :=
  encoding_fits_of_row _ ⟨0x2000, 0xF000⟩ rfl (by decide) ((encodeGNNN_and_F000 ..).trans (by decide))

theorem EncodingFitsItsRow.seImm (x : RegName) (nn : Byte) : EncodingFitsItsRow.Statement (.seImm x nn) :=
  encoding_fits_of_row _ ⟨0x3000, 0xF000⟩ rfl (by decide) ((encodeGXNN_and_F000 ..).trans (by decide))

theorem EncodingFitsItsRow.sneImm (x : RegName) (nn : Byte) : EncodingFitsItsRow.Statement (.sneImm x nn) :=
  encoding_fits_of_row _ ⟨0x4000, 0xF000⟩ rfl (by decide) ((encodeGXNN_and_F000 ..).trans (by decide))

theorem EncodingFitsItsRow.seReg (x y : RegName) (u : Nibble) : EncodingFitsItsRow.Statement (.seReg x y u) :=
  encoding_fits_of_row _ ⟨0x5000, 0xF000⟩ rfl (by decide) ((encodeGXYN_and_F000 ..).trans (by decide))

theorem EncodingFitsItsRow.ldImm (x : RegName) (nn : Byte) : EncodingFitsItsRow.Statement (.ldImm x nn) :=
  encoding_fits_of_row _ ⟨0x6000, 0xF000⟩ rfl (by decide) ((encodeGXNN_and_F000 ..).trans (by decide))

theorem EncodingFitsItsRow.addImm (x : RegName) (nn : Byte) : EncodingFitsItsRow.Statement (.addImm x nn) :=
  encoding_fits_of_row _ ⟨0x7000, 0xF000⟩ rfl (by decide) ((encodeGXNN_and_F000 ..).trans (by decide))

theorem EncodingFitsItsRow.ldReg (x y : RegName) : EncodingFitsItsRow.Statement (.ldReg x y) :=
  encoding_fits_of_row _ ⟨0x8000, 0xF00F⟩ rfl (by decide) ((encodeGXYN_and_F00F ..).trans (by decide))

theorem EncodingFitsItsRow.orReg (x y : RegName) : EncodingFitsItsRow.Statement (.orReg x y) :=
  encoding_fits_of_row _ ⟨0x8001, 0xF00F⟩ rfl (by decide) ((encodeGXYN_and_F00F ..).trans (by decide))

theorem EncodingFitsItsRow.andReg (x y : RegName) : EncodingFitsItsRow.Statement (.andReg x y) :=
  encoding_fits_of_row _ ⟨0x8002, 0xF00F⟩ rfl (by decide) ((encodeGXYN_and_F00F ..).trans (by decide))

theorem EncodingFitsItsRow.xorReg (x y : RegName) : EncodingFitsItsRow.Statement (.xorReg x y) :=
  encoding_fits_of_row _ ⟨0x8003, 0xF00F⟩ rfl (by decide) ((encodeGXYN_and_F00F ..).trans (by decide))

theorem EncodingFitsItsRow.addReg (x y : RegName) : EncodingFitsItsRow.Statement (.addReg x y) :=
  encoding_fits_of_row _ ⟨0x8004, 0xF00F⟩ rfl (by decide) ((encodeGXYN_and_F00F ..).trans (by decide))

theorem EncodingFitsItsRow.subReg (x y : RegName) : EncodingFitsItsRow.Statement (.subReg x y) :=
  encoding_fits_of_row _ ⟨0x8005, 0xF00F⟩ rfl (by decide) ((encodeGXYN_and_F00F ..).trans (by decide))

theorem EncodingFitsItsRow.shr (x y : RegName) : EncodingFitsItsRow.Statement (.shr x y) :=
  encoding_fits_of_row _ ⟨0x8006, 0xF00F⟩ rfl (by decide) ((encodeGXYN_and_F00F ..).trans (by decide))

theorem EncodingFitsItsRow.subn (x y : RegName) : EncodingFitsItsRow.Statement (.subn x y) :=
  encoding_fits_of_row _ ⟨0x8007, 0xF00F⟩ rfl (by decide) ((encodeGXYN_and_F00F ..).trans (by decide))

theorem EncodingFitsItsRow.shl (x y : RegName) : EncodingFitsItsRow.Statement (.shl x y) :=
  encoding_fits_of_row _ ⟨0x800E, 0xF00F⟩ rfl (by decide) ((encodeGXYN_and_F00F ..).trans (by decide))

theorem EncodingFitsItsRow.sneReg (x y : RegName) (u : Nibble) : EncodingFitsItsRow.Statement (.sneReg x y u) :=
  encoding_fits_of_row _ ⟨0x9000, 0xF000⟩ rfl (by decide) ((encodeGXYN_and_F000 ..).trans (by decide))

theorem EncodingFitsItsRow.ldI (nnn : Addr) : EncodingFitsItsRow.Statement (.ldI nnn) :=
  encoding_fits_of_row _ ⟨0xA000, 0xF000⟩ rfl (by decide) ((encodeGNNN_and_F000 ..).trans (by decide))

theorem EncodingFitsItsRow.jpV0 (nnn : Addr) : EncodingFitsItsRow.Statement (.jpV0 nnn) :=
  encoding_fits_of_row _ ⟨0xB000, 0xF000⟩ rfl (by decide) ((encodeGNNN_and_F000 ..).trans (by decide))

theorem EncodingFitsItsRow.rnd (x : RegName) (nn : Byte) : EncodingFitsItsRow.Statement (.rnd x nn) :=
  encoding_fits_of_row _ ⟨0xC000, 0xF000⟩ rfl (by decide) ((encodeGXNN_and_F000 ..).trans (by decide))

theorem EncodingFitsItsRow.drw (x y : RegName) (n : Nibble) : EncodingFitsItsRow.Statement (.drw x y n) :=
  encoding_fits_of_row _ ⟨0xD000, 0xF000⟩ rfl (by decide) ((encodeGXYN_and_F000 ..).trans (by decide))

theorem EncodingFitsItsRow.skp (x : RegName) : EncodingFitsItsRow.Statement (.skp x) :=
  encoding_fits_of_row _ ⟨0xE09E, 0xF0FF⟩ rfl (by decide) ((encodeGXNN_and_F0FF ..).trans (by decide))

theorem EncodingFitsItsRow.sknp (x : RegName) : EncodingFitsItsRow.Statement (.sknp x) :=
  encoding_fits_of_row _ ⟨0xE0A1, 0xF0FF⟩ rfl (by decide) ((encodeGXNN_and_F0FF ..).trans (by decide))

theorem EncodingFitsItsRow.ldVxDt (x : RegName) : EncodingFitsItsRow.Statement (.ldVxDt x) :=
  encoding_fits_of_row _ ⟨0xF007, 0xF0FF⟩ rfl (by decide) ((encodeGXNN_and_F0FF ..).trans (by decide))

theorem EncodingFitsItsRow.ldVxK (x : RegName) : EncodingFitsItsRow.Statement (.ldVxK x) :=
  encoding_fits_of_row _ ⟨0xF00A, 0xF0FF⟩ rfl (by decide) ((encodeGXNN_and_F0FF ..).trans (by decide))

theorem EncodingFitsItsRow.ldDtVx (x : RegName) : EncodingFitsItsRow.Statement (.ldDtVx x) :=
  encoding_fits_of_row _ ⟨0xF015, 0xF0FF⟩ rfl (by decide) ((encodeGXNN_and_F0FF ..).trans (by decide))

theorem EncodingFitsItsRow.ldStVx (x : RegName) : EncodingFitsItsRow.Statement (.ldStVx x) :=
  encoding_fits_of_row _ ⟨0xF018, 0xF0FF⟩ rfl (by decide) ((encodeGXNN_and_F0FF ..).trans (by decide))

theorem EncodingFitsItsRow.addI (x : RegName) : EncodingFitsItsRow.Statement (.addI x) :=
  encoding_fits_of_row _ ⟨0xF01E, 0xF0FF⟩ rfl (by decide) ((encodeGXNN_and_F0FF ..).trans (by decide))

theorem EncodingFitsItsRow.ldF (x : RegName) : EncodingFitsItsRow.Statement (.ldF x) :=
  encoding_fits_of_row _ ⟨0xF029, 0xF0FF⟩ rfl (by decide) ((encodeGXNN_and_F0FF ..).trans (by decide))

theorem EncodingFitsItsRow.ldB (x : RegName) : EncodingFitsItsRow.Statement (.ldB x) :=
  encoding_fits_of_row _ ⟨0xF033, 0xF0FF⟩ rfl (by decide) ((encodeGXNN_and_F0FF ..).trans (by decide))

theorem EncodingFitsItsRow.stRegs (x : RegName) : EncodingFitsItsRow.Statement (.stRegs x) :=
  encoding_fits_of_row _ ⟨0xF055, 0xF0FF⟩ rfl (by decide) ((encodeGXNN_and_F0FF ..).trans (by decide))

theorem EncodingFitsItsRow.ldRegs (x : RegName) : EncodingFitsItsRow.Statement (.ldRegs x) :=
  encoding_fits_of_row _ ⟨0xF065, 0xF0FF⟩ rfl (by decide) ((encodeGXNN_and_F0FF ..).trans (by decide))

end Sys2Proof.Laws
end

