-- ==== Sys2Proof/Laws/Screen.lean ====
section
/-! SUPPORT. The laws of the screen: a pixel read after a pixel write, and what drawing a sprite does to every pixel
and to the collision flag (44_graphics.md R184). -/

namespace Sys2Proof.Machine

theorem Screen.pixel_mod (scr : Screen) (x y : Nat) : scr.pixel (x % 64) (y % 32) = scr.pixel x y := by
  simp [Screen.pixel]

/-- A pixel reads as written, every other pixel as before; coordinates wrap (R180). -/
theorem Screen.pixel_setPixel (scr : Screen) (x y x' y' : Nat) (b : Bool) :
    (scr.setPixel x y b).pixel x' y' =
      if x' % 64 = x % 64 ∧ y' % 32 = y % 32 then b else scr.pixel x' y' := by
  by_cases hx : x % 64 = x' % 64
  · by_cases hy : y % 32 = y' % 32
    · simp [Screen.pixel, Screen.setPixel, hx, hy]
    · simp [Screen.pixel, Screen.setPixel, hx, hy, Ne.symm hy]
  · simp [Screen.pixel, Screen.setPixel, hx, Ne.symm hx]

@[simp] theorem Screen.pixel_blank (x y : Nat) : Screen.blank.pixel x y = false := by
  simp [Screen.blank, Screen.pixel]

/-- Two screens with the same 64 x 32 pixels are the same screen. -/
theorem Screen.ext_pixel (a b : Screen) (h : ∀ x y, x < 64 → y < 32 → a.pixel x y = b.pixel x y) : a = b := by
  apply Vector.ext
  intro x hx
  apply Vector.ext
  intro y hy
  have := h x y hx hy
  simpa [Screen.pixel, Nat.mod_eq_of_lt hx, Nat.mod_eq_of_lt hy] using this

/-! ### One row of a sprite -/

/-- A set bit of the row's columns `bs` falls on column `x`. -/
def rowHits (vx : Nat) (row : Byte) (bs : List Nat) (x : Nat) : Prop :=
  ∃ b ∈ bs, spriteBit row b = true ∧ (vx + b) % 64 = x % 64

theorem pixel_togglePixel (x y x' y' : Nat) (acc : Screen × Bool) :
    (togglePixel x y acc).1.pixel x' y' =
      (acc.1.pixel x' y' != decide (x' % 64 = x % 64 ∧ y' % 32 = y % 32)) := by
  simp only [togglePixel, Screen.pixel_setPixel]
  by_cases h : x' % 64 = x % 64 ∧ y' % 32 = y % 32
  · have : acc.1.pixel x y = acc.1.pixel x' y' := by
      rw [← Screen.pixel_mod acc.1 x y, ← Screen.pixel_mod acc.1 x' y', h.1, h.2]
    simp [h, this]
  · rw [if_neg h, decide_eq_false h]
    simp

/-- One row: each column it sets is toggled once, and it collides exactly where a toggled pixel was on. -/
theorem drawColumns_spec (vx y : Nat) (row : Byte) (bs : List Nat) (acc : Screen × Bool)
    (hnd : bs.Nodup) (hlt : ∀ b ∈ bs, b < 8) :
    (∀ x' y', ((drawColumns vx y row bs acc).1.pixel x' y' = true ↔
        ¬(acc.1.pixel x' y' = true ↔ (y' % 32 = y % 32 ∧ rowHits vx row bs x')))) ∧
      ((drawColumns vx y row bs acc).2 = true ↔
        acc.2 = true ∨ ∃ x', acc.1.pixel x' y = true ∧ rowHits vx row bs x') := by
  induction bs generalizing acc with
  | nil =>
    refine ⟨fun x' y' => ?_, ?_⟩ <;> simp [drawColumns, rowHits]
  | cons b bs ih =>
    obtain ⟨hb, hnd'⟩ := List.nodup_cons.mp hnd
    have hlt' : ∀ c ∈ bs, c < 8 := fun c hc => hlt c (by simp [hc])
    have hb8 : b < 8 := hlt b (by simp)
    simp only [drawColumns]
    by_cases hbit : spriteBit row b = true
    · obtain ⟨ih1, ih2⟩ := ih (togglePixel (vx + b) y acc) hnd' hlt'
      -- the column just toggled is not one of the columns to come
      have hdis : ∀ x', (vx + b) % 64 = x' % 64 → ¬rowHits vx row bs x' := by
        rintro x' hx ⟨c, hc, -, hcx⟩
        have : c = b := by have := hlt' c hc; omega
        exact hb (this ▸ hc)
      have hcons : ∀ x', rowHits vx row (b :: bs) x' ↔ ((vx + b) % 64 = x' % 64 ∨ rowHits vx row bs x') := by
        intro x'; simp [rowHits, hbit]
      rw [if_pos hbit]
      refine ⟨fun x' y' => ?_, ?_⟩
      · rw [ih1, pixel_togglePixel, hcons]
        have hd := hdis x'
        by_cases hx : (vx + b) % 64 = x' % 64
        · have hd' := hd hx
          cases hp : acc.1.pixel x' y' <;> by_cases hy : y' % 32 = y % 32 <;> simp [hx, hy, hd']
        · have hx' : ¬(x' % 64 = (vx + b) % 64) := fun e => hx e.symm
          cases hp : acc.1.pixel x' y' <;> simp [hx, hx']
      · rw [ih2]
        simp only [hcons, pixel_togglePixel]
        constructor
        · rintro (h | ⟨x', hp, hr⟩)
          · have h' : acc.2 = true ∨ acc.1.pixel (vx + b) y = true := by simpa [togglePixel] using h
            rcases h' with h | h
            · exact .inl h
            · exact .inr ⟨vx + b, h, .inl rfl⟩
          · refine .inr ⟨x', ?_, .inr hr⟩
            have hx : ¬(x' % 64 = (vx + b) % 64) := fun e => hdis x' e.symm hr
            simpa [hx] using hp
        · rintro (h | ⟨x', hp, hx | hr⟩)
          · exact .inl (by simp [togglePixel, h])
          · refine .inl ?_
            have : acc.1.pixel (vx + b) y = true := by
              rw [← Screen.pixel_mod, hx, Screen.pixel_mod]; exact hp
            simp [togglePixel, this]
          · refine .inr ⟨x', ?_, hr⟩
            have hx : ¬(x' % 64 = (vx + b) % 64) := fun e => hdis x' e.symm hr
            simpa [hx] using hp
    · obtain ⟨ih1, ih2⟩ := ih acc hnd' hlt'
      have hcons : ∀ x', rowHits vx row (b :: bs) x' ↔ rowHits vx row bs x' := by
        intro x'; simp [rowHits, hbit]
      rw [if_neg hbit]
      simp only [hcons]
      exact ⟨ih1, ih2⟩

/-! ### A sprite -/

/-- The pixel `(x, y)` belongs to the set M of R184, for the rows from row number `r` on. -/
def spriteCovers (vx vy : Nat) (rows : List Byte) (r x y : Nat) : Prop :=
  ∃ k, ∃ hk : k < rows.length, ∃ b, b < 8 ∧ spriteBit rows[k] b = true ∧
    (vx + b) % 64 = x % 64 ∧ (vy + (r + k)) % 32 = y % 32

theorem spriteCovers_cons (vx vy : Nat) (row : Byte) (rows : List Byte) (r x y : Nat) :
    spriteCovers vx vy (row :: rows) r x y ↔
      ((vy + r) % 32 = y % 32 ∧ rowHits vx row [0, 1, 2, 3, 4, 5, 6, 7] x) ∨
        spriteCovers vx vy rows (r + 1) x y := by
  constructor
  · rintro ⟨k, hk, b, hb, hs, hx, hy⟩
    cases k with
    | zero =>
      refine .inl ⟨by simpa using hy, b, ?_, by simpa using hs, hx⟩
      have : b = 0 ∨ b = 1 ∨ b = 2 ∨ b = 3 ∨ b = 4 ∨ b = 5 ∨ b = 6 ∨ b = 7 := by omega
      simpa using this
    | succ k =>
      refine .inr ⟨k, by simpa using hk, b, hb, by simpa using hs, hx, ?_⟩
      have : vy + (r + 1 + k) = vy + (r + (k + 1)) := by omega
      rw [this]; exact hy
  · rintro (⟨hy, b, hb, hs, hx⟩ | ⟨k, hk, b, hb, hs, hx, hy⟩)
    · refine ⟨0, by simp, b, ?_, by simpa using hs, hx, by simpa using hy⟩
      simp only [List.mem_cons, List.not_mem_nil, or_false] at hb
      omega
    · refine ⟨k + 1, by simpa using hk, b, hb, by simpa using hs, hx, ?_⟩
      have : vy + (r + (k + 1)) = vy + (r + 1 + k) := by omega
      rw [this]; exact hy

/-- The whole sprite: with at most 32 rows no pixel is toggled twice, so the screen after is S XOR M and a collision
is reported exactly when S AND M is not empty (R184). -/
theorem drawRows_spec (vx vy : Nat) (rows : List Byte) (r : Nat) (acc : Screen × Bool)
    (hlen : rows.length ≤ 32) :
    (∀ x y, ((drawRows vx vy rows r acc).1.pixel x y = true ↔
        ¬(acc.1.pixel x y = true ↔ spriteCovers vx vy rows r x y))) ∧
      ((drawRows vx vy rows r acc).2 = true ↔
        acc.2 = true ∨ ∃ x y, acc.1.pixel x y = true ∧ spriteCovers vx vy rows r x y) := by
  induction rows generalizing r acc with
  | nil =>
    have hno : ∀ x y, ¬spriteCovers vx vy [] r x y := by
      rintro x y ⟨k, hk, -⟩
      exact Nat.not_lt_zero k hk
    refine ⟨fun x y => ?_, ?_⟩ <;> simp [drawRows, hno]
  | cons row rows ih =>
    have hlen' : rows.length + 1 ≤ 32 := by simpa using hlen
    obtain ⟨c1, c2⟩ := drawColumns_spec vx (vy + r) row [0, 1, 2, 3, 4, 5, 6, 7] acc (by decide) (by decide)
    obtain ⟨ih1, ih2⟩ := ih (r + 1) (drawColumns vx (vy + r) row [0, 1, 2, 3, 4, 5, 6, 7] acc) (by omega)
    -- the rows to come lie on other lines than this one
    have hdis : ∀ x y, (vy + r) % 32 = y % 32 → ¬spriteCovers vx vy rows (r + 1) x y := by
      rintro x y hy ⟨k, hk, b, -, -, -, hk'⟩
      omega
    simp only [drawRows]
    refine ⟨fun x y => ?_, ?_⟩
    · rw [ih1, c1, spriteCovers_cons]
      have hd := hdis x y
      by_cases hy : (vy + r) % 32 = y % 32
      · have hd' := hd hy
        have hy' : y % 32 = (vy + r) % 32 := hy.symm
        by_cases hr : rowHits vx row [0, 1, 2, 3, 4, 5, 6, 7] x <;> simp [hy, hr, hd']
      · have hy' : ¬(y % 32 = (vy + r) % 32) := fun e => hy e.symm
        simp [hy, hy']
    · rw [ih2, c2]
      constructor
      · rintro ((h | ⟨x, hp, hr⟩) | ⟨x, y, hp, hs⟩)
        · exact .inl h
        · exact .inr ⟨x, vy + r, hp, (spriteCovers_cons ..).mpr (.inl ⟨rfl, hr⟩)⟩
        · refine .inr ⟨x, y, ?_, (spriteCovers_cons ..).mpr (.inr hs)⟩
          have hy : ¬(y % 32 = (vy + r) % 32) := fun e => hdis x y e.symm hs
          simpa [c1, hy] using hp
      · rintro (h | ⟨x, y, hp, hs⟩)
        · exact .inl (.inl h)
        · rcases (spriteCovers_cons ..).mp hs with ⟨hy, hr⟩ | hs'
          · refine .inl (.inr ⟨x, ?_, hr⟩)
            rw [← Screen.pixel_mod, hy, Screen.pixel_mod]; exact hp
          · refine .inr ⟨x, y, ?_, hs'⟩
            have hy : ¬(y % 32 = (vy + r) % 32) := fun e => hdis x y e.symm hs'
            simpa [c1, hy] using hp

end Sys2Proof.Machine
end

