-- ==== Sys2Proof/Tests/Slice0.lean ====
section
/-! SUPPORT. Tests on fixed values, and for each obligation with hypotheses a state that meets them. The expected
results are those of 95_test_vectors.md, named by their ids, or written out from the rule cited. -/

namespace Sys2Proof.Tests

open Sys2Proof Sys2Proof.Machine

/-! ### Helpers -/

/-- What a step that goes on leaves in the part of the state asked for. -/
def seen {α : Type} (f : State → α) : Host.Outcome State Fault Refusal → Option α
  | .next t => some (f t)
  | _ => none

/-- The fault a step ends in. -/
def faultOf : Host.Outcome State Fault Refusal → Option Fault
  | .fault f => some f
  | _ => none

/-- The state with the registers and values listed. -/
def withRegs (s : State) : List (RegName × Byte) → State
  | [] => s
  | r :: rs => withRegs (s.setReg r.1 r.2) rs

/-- The state with memory bytes from an address on. -/
def withBytes (s : State) (a : Nat) (bytes : List Byte) : State := s.setMem (Memory.writeAll s.mem a bytes)

/-- The state with the pixels listed turned on. -/
def withPixels (s : State) (on : List (Nat × Nat)) : State :=
  s.setScreen (on.foldl (fun scr p => scr.setPixel p.1 p.2 true) s.screen)

/-- The pixels that are on in the rows listed, row by row. -/
def lit (s : State) (ys : List Nat) : List (Nat × Nat) :=
  ys.flatMap fun y => ((List.range 64).filter fun x => s.screen.pixel x y).map fun x => (x, y)

/-- Reset, with registers, and an instruction word at 0x200. -/
def start (rs : List (RegName × Byte)) (word : Nat) : State :=
  (withRegs State.reset rs).withFetchWord 16 word

/-- `start` with `I`. -/
def startI (i : Addr) (rs : List (RegName × Byte)) (word : Nat) : State := (start rs word).setI i

/-- `startI` with bytes from 0x300 on. -/
def startM (i : Addr) (bytes : List Byte) (rs : List (RegName × Byte)) (word : Nat) : State :=
  withBytes (startI i rs word) 0x300 bytes

/-- An instruction word at any address, `pc` there. -/
def startAt (a : Addr) (rs : List (RegName × Byte)) (word : Nat) : State :=
  ((withRegs State.reset rs).setPc a).withFetchWord 16 word

/-- `start` at a stack depth. -/
def startSp (d : Fin 17) (word : Nat) : State := { start [] word with sp := d }

/-! ### Well-formedness: an ill-formed term for each check -/

theorem test_wellFormed_admits_every_unchecked_nibble :
    (Instr.cls 0x5).wellFormed = true ∧ (Instr.seReg 1 2 0xF).wellFormed = true := by decide

theorem test_canonical_refuses_cls : (Instr.cls 0x5).canonical = false := by decide
theorem test_canonical_refuses_ret : (Instr.ret 0xF).canonical = false := by decide
theorem test_canonical_refuses_seReg : (Instr.seReg 1 2 0xF).canonical = false := by decide
theorem test_canonical_refuses_sneReg : (Instr.sneReg 0xA 0xB 7).canonical = false := by decide
theorem test_canonical_admits : (Instr.seReg 1 2 0).canonical = true ∧ (Instr.drw 0 0 0).canonical = true := by
  decide

/-- R-2, R-3. -/
theorem test_programFits_refuses_3585 :
    programFits (List.replicate 3585 0) = false ∧ programFits (List.replicate 3584 0) = true := by
  unfold programFits
  rw [List.length_replicate, List.length_replicate]
  decide

theorem test_fontWellFormed_refuses_79_bytes : fontWellFormed (Config.defaultFont.take 79) = false := by decide
theorem test_fontWellFormed_refuses_another_first_byte :
    fontWellFormed (0x00 :: Config.defaultFont.drop 1) = false := by decide
theorem test_fontWellFormed_admits_the_default : fontWellFormed Config.defaultFont = true := by decide

/-! ### Decoding: every constructor, from a word written out from its pattern in 30_encoding.md R75 -/

/-- E-1 to E-4, and `1NNN`, `2NNN`. -/
theorem test_decode_groups_0_1_2 :
    decode 0x00E0 = .ok (.cls 0) ∧ decode 0x05E0 = .ok (.cls 5) ∧ decode 0x00EE = .ok (.ret 0) ∧
      decode 0x0FEE = .ok (.ret 0xF) ∧ decode 0x1ABC = .ok (.jp 0xABC) ∧ decode 0x2DEF = .ok (.call 0xDEF) :=
  ⟨rfl, rfl, rfl, rfl, rfl, rfl⟩

/-- E-8 to E-10, and `3XNN`, `4XNN`, `6XNN`, `7XNN`. -/
theorem test_decode_skips_and_immediates :
    decode 0x3A42 = .ok (.seImm 0xA 0x42) ∧ decode 0x4B17 = .ok (.sneImm 0xB 0x17) ∧
      decode 0x5120 = .ok (.seReg 1 2 0) ∧ decode 0x512F = .ok (.seReg 1 2 0xF) ∧
      decode 0x6C9D = .ok (.ldImm 0xC 0x9D) ∧ decode 0x7E01 = .ok (.addImm 0xE 0x01) ∧
      decode 0x9AB7 = .ok (.sneReg 0xA 0xB 7) := ⟨rfl, rfl, rfl, rfl, rfl, rfl, rfl⟩

/-- E-13, and the other `8XYn`. -/
theorem test_decode_group_8 :
    decode 0x8120 = .ok (.ldReg 1 2) ∧ decode 0x8341 = .ok (.orReg 3 4) ∧ decode 0x8562 = .ok (.andReg 5 6) ∧
      decode 0x8783 = .ok (.xorReg 7 8) ∧ decode 0x89A4 = .ok (.addReg 9 0xA) ∧
      decode 0x8BC5 = .ok (.subReg 0xB 0xC) ∧ decode 0x8DE6 = .ok (.shr 0xD 0xE) ∧
      decode 0x8F07 = .ok (.subn 0xF 0) ∧ decode 0x812E = .ok (.shl 1 2) :=
  ⟨rfl, rfl, rfl, rfl, rfl, rfl, rfl, rfl, rfl⟩

/-- E-14, E-16, E-20, E-21, and `ANNN`, `CXNN`, `DXYN`. -/
theorem test_decode_groups_A_to_E :
    decode 0xA2F0 = .ok (.ldI 0x2F0) ∧ decode 0xBFFF = .ok (.jpV0 0xFFF) ∧ decode 0xC30F = .ok (.rnd 3 0x0F) ∧
      decode 0xD12A = .ok (.drw 1 2 0xA) ∧ decode 0xD000 = .ok (.drw 0 0 0) ∧ decode 0xE19E = .ok (.skp 1) ∧
      decode 0xE0A1 = .ok (.sknp 0) := ⟨rfl, rfl, rfl, rfl, rfl, rfl, rfl⟩

/-- E-17, and the other `FXnn`. -/
theorem test_decode_group_F :
    decode 0xF107 = .ok (.ldVxDt 1) ∧ decode 0xF20A = .ok (.ldVxK 2) ∧ decode 0xF315 = .ok (.ldDtVx 3) ∧
      decode 0xF418 = .ok (.ldStVx 4) ∧ decode 0xF51E = .ok (.addI 5) ∧ decode 0xF629 = .ok (.ldF 6) ∧
      decode 0xF733 = .ok (.ldB 7) ∧ decode 0xF855 = .ok (.stRegs 8) ∧ decode 0xF165 = .ok (.ldRegs 1) :=
  ⟨rfl, rfl, rfl, rfl, rfl, rfl, rfl, rfl, rfl⟩

/-- E-5 to E-7, E-11, E-12, E-15, E-18, E-19, E-22. -/
theorem test_decode_rejects :
    decode 0x0000 = .error (.unrecognized 0x0000) ∧ decode 0x00E1 = .error (.unrecognized 0x00E1) ∧
      decode 0x0123 = .error (.unrecognized 0x0123) ∧ decode 0x8128 = .error (.unrecognized 0x8128) ∧
      decode 0x812F = .error (.unrecognized 0x812F) ∧ decode 0xE19F = .error (.unrecognized 0xE19F) ∧
      decode 0xF166 = .error (.unrecognized 0xF166) ∧ decode 0xF000 = .error (.unrecognized 0xF000) ∧
      decode 0xFFFF = .error (.unrecognized 0xFFFF) := ⟨rfl, rfl, rfl, rfl, rfl, rfl, rfl, rfl, rfl⟩

/-- The first byte is the more significant one (R54), and one byte is no instruction. -/
theorem test_decode_bytes :
    decodeBytes [0x12, 0x34, 0x56] = .ok (.jp 0x234, [0x56]) ∧ decodeBytes [0x12] = .error .truncated ∧
      decodeTableWord 16 0x1234 = some (.jp 0x234) := ⟨rfl, rfl, rfl⟩

/-- Words written out from the patterns, the other way. -/
theorem test_encode :
    encode (.call 0x345) = 0x2345 ∧ encode (.subn 1 2) = 0x8127 ∧ encode (.rnd 3 0x0F) = 0xC30F ∧
      encode (.drw 1 2 5) = 0xD125 ∧ encode (.ldRegs 2) = 0xF265 ∧ encode (.ret 0xF) = 0x0FEE := by decide

/-- The example of R79. -/
theorem test_spelling : (Instr.ldImm 0xA 0x05).spelling = "6A05" := by decide

/-! ### The cycle -/

/-- X-1. -/
theorem test_fetch_at_top_faults :
    faultOf (step (State.reset.setPc 0xFFF)) = some (.outOfRangeAccess 0xFFF none 0x1000) := by decide
/-- X-2. -/
theorem test_fetch_wraps_pc_after : seen (fun t => (t.reg 0, t.pc)) (step (startAt 0xFFE [] 0x6007)) =
    some (7, 0x000) := by decide
/-- X-3. -/
theorem test_fetch_at_odd_pc : seen (fun t => (t.reg 1, t.pc)) (step (startAt 0x201 [] 0x6122)) =
    some (0x22, 0x203) := by decide
/-- X-4. -/
theorem test_unrecognized_continues : cycle .continue (start [] 0x0123) =
    .diag ⟨0x200, 0x0123⟩ { start [] 0x0123 with pc := 0x202 } := rfl
/-- X-5. -/
theorem test_unrecognized_faults : cycle .fault (start [] 0x0123) = .fault (.unknownOpcode 0x200 0x0123) := rfl
/-- X-7: the default font's first word is unrecognized. -/
theorem test_reset_memory_holds_no_program :
    seen (fun t => t.pc) (step State.reset) = some 0x202 ∧
      cycle .continue (State.reset.setPc 0) = .diag ⟨0, 0xF090⟩ (State.reset.setPc 2) := ⟨rfl, rfl⟩
/-- A cycle that draws nothing leaves no byte for a later one (R35, R95). -/
theorem test_rnd_byte_ends_with_its_cycle :
    seen (fun t => t.rnd) (cycleWith .continue 0x11 (start [] 0x6000)).toHost = some none := by decide
/-- The codes of R221. -/
theorem test_fault_codes :
    [Fault.stackOverflow 0 0, .stackUnderflow 0 0, .outOfRangeAccess 0 none 0, .unknownOpcode 0 0,
      .programTooLarge 0].map Fault.code = [1, 2, 3, 4, 5] := by decide

/-! ### Control flow -/

/-- CF-1, with the X nibble as it was fetched (R224). -/
theorem test_ret_underflow : faultOf (step (startSp 0 0x0FEE)) = some (.stackUnderflow 0x200 0x0FEE) := by decide
/-- CF-2. -/
theorem test_ret : seen (fun t => (t.sp, t.pc, t.stack[1]))
    (step { startAt 0x300 [] 0x00EE with sp := 2, stack := State.reset.stack.set 1 0x456 }) =
    some (1, 0x456, 0x456) := by decide
/-- CF-6. -/
theorem test_jp_odd : seen (fun t => t.pc) (step (start [] 0x1201)) = some 0x201 := by decide
/-- CF-7. -/
theorem test_call : seen (fun t => (t.stack[15], t.sp, t.pc)) (step (startSp 15 0x2400)) =
    some (0x202, 16, 0x400) := by decide
/-- CF-8. -/
theorem test_call_overflow : faultOf (step (startSp 16 0x2400)) = some (.stackOverflow 0x200 0x2400) := by decide
/-- CF-11. -/
theorem test_seImm_stays : seen (fun t => t.pc) (step (start [(3, 0x42)] 0x3343)) = some 0x202 := by decide
/-- CF-12. -/
theorem test_seImm_wraps : seen (fun t => t.pc) (step (startAt 0xFFE [] 0x3000)) = some 0x002 := by decide
/-- CF-15. -/
theorem test_sneImm_stays : seen (fun t => t.pc) (step (start [(3, 0x42)] 0x4342)) = some 0x202 := by decide
/-- CF-16. -/
theorem test_sneImm_skips : seen (fun t => t.pc) (step (start [(3, 0x42)] 0x4300)) = some 0x204 := by decide
/-- CF-18. -/
theorem test_seReg_skips : seen (fun t => t.pc) (step (start [(1, 7), (2, 7)] 0x5125)) = some 0x204 := by decide
/-- CF-19. -/
theorem test_seReg_stays : seen (fun t => t.pc) (step (start [(1, 7), (2, 8)] 0x5120)) = some 0x202 := by decide
/-- CF-21. -/
theorem test_sneReg_skips : seen (fun t => t.pc) (step (start [(1, 7), (2, 8)] 0x9120)) = some 0x204 := by decide
/-- CF-22. -/
theorem test_sneReg_stays : seen (fun t => t.pc) (step (start [] 0x9110)) = some 0x202 := by decide
/-- CF-25. -/
theorem test_jpV0_wraps : seen (fun t => t.pc) (step (start [(0, 0xFF)] 0xBF80)) = some 0x07F := by decide
/-- CF-26. -/
theorem test_jpV0_uses_V0 : seen (fun t => t.pc) (step (start [(3, 9)] 0xB300)) = some 0x300 := by decide

/-! ### The ALU -/

/-- A-2. -/
theorem test_ldImm : seen (fun t => t.reg 0xF) (step (start [] 0x6FAB)) = some 0xAB := by decide
/-- A-3. -/
theorem test_addImm : seen (fun t => (t.reg 1, t.reg 0xF)) (step (start [(1, 0xFE), (0xF, 0x55)] 0x7103)) =
    some (0x01, 0x55) := by decide
/-- A-6. -/
theorem test_ldReg : seen (fun t => (t.reg 1, t.reg 0xF)) (step (start [(2, 0x33), (0xF, 0x55)] 0x8120)) =
    some (0x33, 0x55) := by decide
/-- A-7. -/
theorem test_orReg : seen (fun t => (t.reg 1, t.reg 0xF))
    (step (start [(1, 0x0F), (2, 0xF0), (0xF, 0x55)] 0x8121)) = some (0xFF, 0x55) := by decide
/-- A-8. -/
theorem test_andReg : seen (fun t => t.reg 1) (step (start [(1, 0x3C), (2, 0x0F)] 0x8122)) = some 0x0C := by decide
/-- A-9. -/
theorem test_xorReg : seen (fun t => t.reg 1) (step (start [(1, 0x3C), (2, 0x0F)] 0x8123)) = some 0x33 := by decide
/-- A-15. -/
theorem test_addReg_to_VF : seen (fun t => t.reg 0xF) (step (start [(0xF, 0x10), (1, 0xF5)] 0x8F14)) =
    some 0x05 := by decide
/-- A-16. -/
theorem test_addReg_from_VF : seen (fun t => (t.reg 1, t.reg 0xF)) (step (start [(1, 1), (0xF, 0xFF)] 0x81F4)) =
    some (0x00, 1) := by decide
/-- A-18. -/
theorem test_subReg_equal : seen (fun t => (t.reg 1, t.reg 0xF)) (step (start [(1, 3), (2, 3)] 0x8125)) =
    some (0, 0) := by decide
/-- A-21. -/
theorem test_subReg_to_VF : seen (fun t => t.reg 0xF) (step (start [(0xF, 9), (2, 4)] 0x8F25)) = some 5 := by decide
/-- A-25. -/
theorem test_shr_ignores_Y : seen (fun t => (t.reg 1, t.reg 0xF)) (step (start [(1, 4), (0xA, 0xFF)] 0x81A6)) =
    some (2, 0) := by decide
/-- A-23. -/
theorem test_shr_carries_out : seen (fun t => (t.reg 1, t.reg 0xF)) (step (start [(1, 0xFF)] 0x8106)) =
    some (0x7F, 1) := by decide
/-- A-27. -/
theorem test_subn : seen (fun t => (t.reg 1, t.reg 0xF)) (step (start [(1, 3), (2, 5)] 0x8127)) =
    some (2, 1) := by decide
/-- A-28. -/
theorem test_subn_equal : seen (fun t => (t.reg 1, t.reg 0xF)) (step (start [(1, 5), (2, 5)] 0x8127)) =
    some (0, 0) := by decide
/-- A-32. -/
theorem test_shl : seen (fun t => (t.reg 1, t.reg 0xF)) (step (start [(1, 0x40)] 0x810E)) =
    some (0x80, 0x40) := by decide
/-- A-35. -/
theorem test_shl_of_VF : seen (fun t => t.reg 0xF) (step (start [(0xF, 0xC3)] 0x8F0E)) = some 0x86 := by decide
/-- A-36, a byte presented earlier for the same cycle replaced (R95). -/
theorem test_rnd : seen (fun t => (t.reg 3, t.rnd)) (step (((start [] 0xC30F).presentRnd 0xFF).presentRnd 0xA7)) =
    some (0x07, none) := by decide
/-- A-37, with the byte a free value: nothing is known of it, and it is masked away. -/
theorem test_rnd_free : seen (fun t => t.reg 3) (step (start [(3, 0x55)] 0xC300)) = some 0x00 := by
  have h : ∀ b : Byte, b &&& 0#8 = 0#8 := by decide
  exact congrArg some (h _)

/-! ### The index register and memory -/

/-- M-2. -/
theorem test_ldI : seen (fun t => t.I) (step (start [] 0xAFFF)) = some 0xFFF := by decide
/-- M-5. -/
theorem test_addI_up_to_top : seen (fun t => (t.I, t.reg 0xF)) (step (startI 0xF00 [(1, 0xFF)] 0xF11E)) =
    some (0xFFF, 0) := by decide
/-- M-8. -/
theorem test_addI_VF_read_again : seen (fun t => (t.I, t.reg 0xF)) (step (startI 0xFFE [(0xF, 5)] 0xFF1E)) =
    some (0xFFF, 1) := by decide
/-- M-12. -/
theorem test_ldF : seen (fun t => t.I) (step (start [(0, 0xFF)] 0xF029)) = some 0x4FB := by decide
/-- M-18. -/
theorem test_ldB : seen (fun t => ([0xFFC, 0xFFD, 0xFFE, 0xFFF].map t.mem.read, t.I))
    (step (startI 0xFFD [(0, 128)] 0xF033)) = some ([0, 1, 2, 8], 0xFFD) := by decide
/-- M-19. -/
theorem test_ldB_out_of_range : faultOf (step (startI 0xFFE [] 0xF033)) =
    some (.outOfRangeAccess 0x200 (some 0xF033) 0x1000) := by decide
/-- M-22. -/
theorem test_stRegs : seen (fun t => ([0xFEF, 0xFF0, 0xFF1, 0xFFF].map t.mem.read, t.I))
    (step (startI 0xFF0 [(1, 0x01), (0xF, 0x0F)] 0xFF55)) = some ([0, 0x00, 0x01, 0x0F], 0x000) := by decide
/-- M-23. -/
theorem test_stRegs_out_of_range : faultOf (step (startI 0xFF1 [] 0xFF55)) =
    some (.outOfRangeAccess 0x200 (some 0xFF55) 0x1000) := by decide
/-- M-25, with a fourth byte after the three. -/
theorem test_ldRegs : seen (fun t => ([0, 1, 2, 3].map t.reg, t.I))
    (step (startM 0x300 [2, 3, 4, 5] [(3, 0x99)] 0xF265)) = some ([2, 3, 4, 0x99], 0x303) := by decide
/-- M-28. -/
theorem test_ldRegs_out_of_range : faultOf (step (startI 0xFFF [(0, 0x99)] 0xF165)) =
    some (.outOfRangeAccess 0x200 (some 0xF165) 0x1000) := by decide
/-- M-29, and the reset content written back leaves the list empty (log 6). -/
theorem test_font_is_writable : (Memory.write [] 0 0x55).read 0 = 0x55 ∧
    Memory.write (Memory.write [] 0 0x55) 0 0xF0 = [] := by decide
/-- Ill-formed memories: out of order, twice the same address, a reset content, an address above 0xFFF. -/
theorem test_memory_wf_refuses : Memory.wf [(0x301, 1), (0x300, 1)] = false ∧
    Memory.wf [(0x300, 1), (0x300, 2)] = false ∧ Memory.wf [(0x300, 0)] = false ∧ Memory.wf [(0, 0xF0)] = false ∧
    Memory.wf [(0x1000, 1)] = false ∧ Memory.wf [(0, 0), (0xFFF, 1)] = true := by decide

/-! ### The screen -/

/-- G-1. -/
theorem test_cls : seen (fun t => (lit t [0, 31], t.reg 0xF, t.isDrawing))
    (step (withPixels (start [(0xF, 0x55)] 0x00E0) [(5, 0), (63, 31)])) = some ([], 0x55, false) := by decide
/-- G-2. -/
theorem test_cls_leaves_the_flag :
    seen (fun t => t.isDrawing) (step ((start [] 0x00E0).setDrawing true)) = some true := by decide
/-- G-13: wrapping down, up to the right edge. -/
theorem test_drw_wraps :
    seen (fun t => (lit t [0, 1, 29, 30, 31], t.reg 0xF))
      (step (startM 0x300 [0xF0, 0xF0, 0xF0] [(0, 60), (1, 30)] 0xD013)) =
    some ([(60, 0), (61, 0), (62, 0), (63, 0)] ++ [(60, 30), (61, 30), (62, 30), (63, 30)] ++
      [(60, 31), (61, 31), (62, 31), (63, 31)], 0) := by decide
/-- G-5: a pixel turned off is a collision. -/
theorem test_drw_collides :
    seen (fun t => (lit t [0], t.reg 0xF, t.isDrawing))
      (step (withPixels (startM 0x300 [0x80] [] 0xD011) [(0, 0)])) = some ([], 1, true) := by decide

/-! ### Keys, timers and the host's moves -/

/-- K-1. -/
theorem test_skp : seen (fun t => t.pc) (step ((start [(2, 3)] 0xE29E).setKey 3 true)) = some 0x204 := by decide
/-- K-5, the key that the low nibble would name pressed. -/
theorem test_skp_beyond_15 : seen (fun t => t.pc) (step ((start [(2, 0x10)] 0xE29E).setKey 0 true)) =
    some 0x202 := by decide
/-- K-4. -/
theorem test_sknp : seen (fun t => t.pc) (step ((start [(2, 3)] 0xE2A1).setKey 3 true)) = some 0x202 := by decide
/-- K-6, the key that the low nibble would name pressed. -/
theorem test_sknp_beyond_15 : seen (fun t => t.pc) (step ((start [(2, 0x13)] 0xE2A1).setKey 3 true)) =
    some 0x204 := by decide
/-- K-7. -/
theorem test_ldVxDt : seen (fun t => t.reg 5) (step ((start [] 0xF507).setDelay 0x3C)) = some 0x3C := by decide
/-- K-8. -/
theorem test_ldVxK_waits : seen (fun t => (t.pc, t.reg 3)) (step (startAt 0x208 [(3, 0x77)] 0xF30A)) =
    some (0x208, 0x77) := by decide
/-- K-9. -/
theorem test_ldVxK_takes_the_lowest : seen (fun t => (t.pc, t.reg 3))
    (step (((startAt 0x208 [(3, 0x77)] 0xF30A).setKey 9 true).setKey 3 true)) = some (0x20A, 3) := by decide
/-- K-13. -/
theorem test_ldDtVx : seen (fun t => (t.delayTimer, t.soundTimer)) (step (start [(1, 0x3C)] 0xF115)) =
    some (0x3C, 0) := by decide
/-- K-14. -/
theorem test_ldStVx : seen (fun t => (t.soundTimer, t.delayTimer, t.soundActive))
    (step (start [(1, 5)] 0xF118)) = some (5, 0, true) := by decide
/-- K-16, K-18, K-19. -/
theorem test_tick_and_ackDraw :
    ((State.reset.setDelay 5).setSound 3).tick.delayTimer = 4 ∧
      ((State.reset.setDelay 5).setSound 3).tick.soundTimer = 2 ∧ State.reset.tick.delayTimer = 0 ∧
      (State.reset.setDrawing true).ackDraw.isDrawing = false := by decide
/-- R-1. -/
theorem test_reset_memory :
    [0x000, 0x001, 0x04F, 0x050, 0xFFF].map State.reset.mem.read = [0xF0, 0x90, 0x80, 0, 0] := by decide
/-- R-5: the loaded program runs at once, and parks. -/
theorem test_load_then_step : (State.reset.load [0x12, 0x00]).toOption.bind
    (fun t => seen (fun u => u.pc) (step t)) = some 0x200 := by decide

/-! ### Witnesses: states and operands that meet the hypotheses of the obligation named -/

/-- A step that goes on does so with some state. -/
def goesOn (o : Host.Outcome State Fault Refusal) : Prop := ∃ t, o = .next t

theorem witness_EncodingADecodedWordGivesItBack :
    decode 0x0FEE = .ok (.ret 0xF) ∧ decode 0x9AB7 = .ok (.sneReg 0xA 0xB 7) := ⟨rfl, rfl⟩

theorem witness_DecoderAgreesWithTheOpcodeMap :
    (⟨0x00E0, 0xF0FF⟩ : OpcodeRow) ∈ opcodeMap ∧ OpcodeRow.selects ⟨0x00E0, 0xF0FF⟩ 0x0FE0 = true ∧
      (⟨0xF065, 0xF0FF⟩ : OpcodeRow) ∈ opcodeMap ∧ OpcodeRow.selects ⟨0xF065, 0xF0FF⟩ 0xFF65 = true ∧
      decode 0xFF65 = .ok (.ldRegs 0xF) := ⟨by decide, by decide, by decide, by decide, rfl⟩

/-- A word of a group that the top nibble alone selects; pairs that differ in what is not looked at. -/
theorem witness_TopNibbleAloneSelectsTwelveGroups :
    (0x1000 : Word).toNat / 4096 ∉ [0x0, 0x8, 0xE, 0xF] ∧ (0xDFFF : Word).toNat / 4096 ∉ [0x0, 0x8, 0xE, 0xF] ∧
      ((0x00E0 : Word).toNat / 4096 ∈ [0x0, 0xE, 0xF] ∧ (0x00E0 : Word).toNat / 4096 = (0x0FE0 : Word).toNat / 4096 ∧
        (0x00E0 : Word).toNat % 256 = (0x0FE0 : Word).toNat % 256) ∧
      ((0x8007 : Word).toNat / 4096 = 0x8 ∧ (0x8007 : Word).toNat / 4096 = (0x8AB7 : Word).toNat / 4096 ∧
        (0x8007 : Word).toNat % 16 = (0x8AB7 : Word).toNat % 16) := by decide

/-- At the highest address an instruction can stand. -/
theorem witness_StepRunsTheDecodedInstruction :
    (startAt 0xFFE [] 0x6007).pc.toNat + 1 ≤ 0xFFF ∧
      (0x6007 : Word).toNat = ((startAt 0xFFE [] 0x6007).mem.read (startAt 0xFFE [] 0x6007).pc.toNat).toNat * 256 +
        ((startAt 0xFFE [] 0x6007).mem.read ((startAt 0xFFE [] 0x6007).pc.toNat + 1)).toNat ∧
      decode 0x6007 = .ok (.ldImm 0 7) := ⟨by decide, by decide, rfl⟩

theorem witness_FetchFaultsAtTheTopOnly :
    (State.reset.setPc 0xFFF).pc = 0xFFF ∧ (State.reset.setPc 0xFFE).pc ≠ 0xFFF ∧ (State.reset.setPc 0).pc ≠ 0xFFF :=
  by decide

theorem witness_UnrecognizedWordOnlyAdvances :
    State.reset.fetchWord = .ok 0x0000 ∧ decode 0x0000 = .error (.unrecognized 0x0000) := ⟨rfl, rfl⟩

/-- A block whose next cycle faults: at the fetch, and at a return with an empty stack. -/
theorem witness_FaultedCycleChangesNothing :
    (∃ w', Session.move Config.defaultFont .continue ⟨State.reset.setPc 0xFFF, .running, some .ok⟩ (.cycle 0x5A) = some w' ∧
        w'.phase = .faulted (.outOfRangeAccess 0xFFF none 0x1000)) ∧
      ∃ w', Session.move Config.defaultFont .fault ⟨startSp 0 0x00EE, .loaded, none⟩ (.cycle 0x5A) = some w' ∧
        w'.phase = .faulted (.stackUnderflow 0x200 0x00EE) := ⟨⟨_, rfl, rfl⟩, ⟨_, rfl, rfl⟩⟩

/-- Two states that differ in a register and a key, and agree in what decides the fault. -/
theorem witness_FaultDependsOnPcSpIndexAndWord :
    (startI 0xFFE [] 0xF033).pc = ((startI 0xFFE [(0, 9)] 0xF033).setKey 3 true).pc ∧
      (startI 0xFFE [] 0xF033).sp = ((startI 0xFFE [(0, 9)] 0xF033).setKey 3 true).sp ∧
      (startI 0xFFE [] 0xF033).I = ((startI 0xFFE [(0, 9)] 0xF033).setKey 3 true).I ∧
      (startI 0xFFE [] 0xF033).mem.read 0x200 = ((startI 0xFFE [(0, 9)] 0xF033).setKey 3 true).mem.read 0x200 ∧
      (startI 0xFFE [] 0xF033).mem.read 0x201 = ((startI 0xFFE [(0, 9)] 0xF033).setKey 3 true).mem.read 0x201 ∧
      cycle .continue (startI 0xFFE [] 0xF033) = .fault (.outOfRangeAccess 0x200 (some 0xF033) 0x1000) :=
  ⟨rfl, rfl, rfl, rfl, rfl, rfl⟩

theorem witness_StepKeepsTheInvariant :
    (startI 0xFFD [(0, 128)] 0xF033).Inv ∧ goesOn (step (startI 0xFFD [(0, 128)] 0xF033)) :=
  ⟨by unfold State.Inv; decide, _, rfl⟩

/-- A block in which a program is loaded and has run one cycle (with a font given in part, which keeps the term
small). -/
theorem witness_EveryReachableBlockMeetsTheInvariant :
    ∃ w, Session.Reachable [0xF0, 0x77] .continue w ∧ w.phase = .running :=
  ⟨_, .move _ _ (.cycle 0x5A) (.move _ _ (.load [0x12, 0x00]) .reset rfl) rfl, rfl⟩

theorem witness_CanonicalMemoriesAreDeterminedByTheirBytes :
    Memory.wf (Memory.write (Memory.write [] 0xFFF 1) 0 2) = true ∧
      Memory.wf (Memory.write (Memory.write [] 0 2) 0xFFF 1) = true ∧
      Memory.write (Memory.write [] 0xFFF 1) 0 2 = Memory.write (Memory.write [] 0 2) 0xFFF 1 := by decide

theorem witness_EveryInstructionKeepsItsFrame :
    goesOn (exec (.stRegs 0xF) (startI 0xFF0 [] 0)) ∧ goesOn (exec (.drw 0 0 1) State.reset) ∧
      goesOn (exec (.rnd 3 0x0F) State.reset) := ⟨⟨_, rfl⟩, ⟨_, rfl⟩, ⟨_, rfl⟩⟩

theorem witness_OnlyTheHostWritesKeys : goesOn (step ((start [(2, 3)] 0xE29E).setKey 3 true)) := ⟨_, rfl⟩

theorem witness_CyclesLeaveTimersToTheirInstructions :
    (goesOn (step (start [(1, 0x3C)] 0xF115)) ∧ (start [(1, 0x3C)] 0xF115).NextInstr (.ldDtVx 1)) ∧
      goesOn (step (start [(1, 5)] 0xF118)) ∧ (start [(1, 5)] 0xF118).NextInstr (.ldStVx 1) :=
  ⟨⟨⟨_, rfl⟩, _, rfl, rfl⟩, ⟨_, rfl⟩, _, rfl, rfl⟩

/-- A draw that raises the flag, N = 0 included, and a step that is no draw. -/
theorem witness_DrawFlagIsRaisedByDrawsOnly :
    (∃ t, step (start [] 0xD010) = .next t ∧ t.isDrawing = true) ∧
      ∃ t, step (start [] 0x00E0) = .next t ∧ t.isDrawing = false := ⟨⟨_, rfl, rfl⟩, ⟨_, rfl, rfl⟩⟩

/-- The first and the last byte stored. -/
theorem witness_MemoryIsWrittenByTwoInstructionsOnly :
    (∃ t, step (startI 0xFFD [(0, 128)] 0xF033) = .next t ∧ t.mem.read 0xFFD = 1 ∧ t.mem.read 0xFFF = 8 ∧
        (startI 0xFFD [(0, 128)] 0xF033).mem.read 0xFFD = 0 ∧ (startI 0xFFD [(0, 128)] 0xF033).mem.read 0xFFF = 0) ∧
      ∃ t, step (startI 0xFF0 [(0, 7), (0xF, 9)] 0xFF55) = .next t ∧ t.mem.read 0xFF0 = 7 ∧ t.mem.read 0xFFF = 9 ∧
        (startI 0xFF0 [(0, 7), (0xF, 9)] 0xFF55).mem.read 0xFF0 = 0 ∧
        (startI 0xFF0 [(0, 7), (0xF, 9)] 0xFF55).mem.read 0xFFF = 0 :=
  ⟨⟨_, rfl, rfl, rfl, rfl, rfl⟩, ⟨_, rfl, rfl, rfl, rfl, rfl⟩⟩

/-- Parked at 0x200, and at the highest address. -/
theorem witness_ParkedStateStays : (start [] 0x1200).Parked ∧ (startAt 0xFFE [] 0x1FFE).Parked :=
  ⟨⟨_, rfl, rfl⟩, ⟨_, rfl, rfl⟩⟩

theorem witness_WaitingForAKeyChangesNothing : (startAt 0xFFE [(3, 0x77)] 0xF30A).WaitsForKey :=
  ⟨⟨3, _, rfl, rfl⟩, by decide⟩

/-- A call at the last free entry from 0xFFE, and the return that follows it. -/
theorem witness_ReturnUndoesTheCall :
    ({ startAt 0xFFE [] 0x2400 with sp := 15 } : State).sp.val < 16 ∧
      State.NextInstr { startAt 0xFFE [] 0x2400 with sp := 15 } (.call 0x400) ∧
      ∃ t, step { startAt 0xFFE [] 0x2400 with sp := 15 } = .next t ∧
        State.NextInstr (t.withFetchWord 16 0x00EE) (.ret 0) ∧ (t.withFetchWord 16 0x00EE).sp = t.sp ∧
        (t.withFetchWord 16 0x00EE).stack[15] = t.stack[15] :=
  ⟨by decide, ⟨_, rfl, rfl⟩, _, rfl, ⟨_, rfl, rfl⟩, rfl, rfl⟩

/-- At the lowest and the highest address the next instruction can stand. -/
theorem witness_StoredInstructionIsTheOneFetched :
    ((State.reset.setPc 0xFFE).setI 0xFFE).I = ((State.reset.setPc 0xFFE).setI 0xFFE).pc ∧
      ((State.reset.setPc 0xFFE).setI 0xFFE).pc ≠ 0xFFF ∧
      (State.reset.setPc 0).I = (State.reset.setPc 0).pc ∧ (State.reset.setPc 0).pc ≠ 0xFFF ∧
      decode (wordOfBytes ((withRegs ((State.reset.setPc 0xFFE).setI 0xFFE) [(0, 0x60), (1, 7)]).reg 0)
        ((withRegs ((State.reset.setPc 0xFFE).setI 0xFFE) [(0, 0x60), (1, 7)]).reg 1)) = .ok (.ldImm 0 7) ∧
      decode (wordOfBytes ((withRegs (State.reset.setPc 0) [(0, 0x00), (1, 0xE0)]).reg 0)
        ((withRegs (State.reset.setPc 0) [(0, 0x00), (1, 0xE0)]).reg 1)) = .ok (.cls 0) :=
  ⟨by decide, by decide, by decide, by decide, rfl, rfl⟩

theorem witness_CallPushesAndJumps :
    (startSp 0 0).sp.val < 16 ∧ (startSp 15 0).sp.val < 16 ∧ (startSp 16 0).sp.val = 16 := by decide

theorem witness_ReturnPopsPc :
    0 < (startSp 1 0).sp.val ∧ 0 < (startSp 16 0).sp.val ∧ (startSp 0 0).sp.val = 0 := by decide

/-- The flag's clause, with X different from F. -/
theorem witness_AddAndSubtractWithFlag : (0xE : RegName) ≠ 0xF ∧ (0 : RegName) ≠ 0xF := by decide

theorem witness_ShiftsOfVXWithFlag : (0xE : RegName) ≠ 0xF ∧ (0 : RegName) ≠ 0xF := by decide

theorem witness_RandomDrawIsMasked :
    (State.reset.presentRnd 0xA7).rnd = some 0xA7 ∧ State.reset.rnd = none := by decide

/-- A draw, and a cycle that draws nothing: each with the byte of another cycle still named. -/
theorem witness_RandomByteIsThatOfItsCycle :
    ((start [] 0xC0FF).presentRnd 0x11).NextInstr (.rnd 0 0xFF) ∧
      (∀ x nn, ¬ ((start [] 0x6000).presentRnd 0x11).NextInstr (.rnd x nn)) ∧
      ∃ t, cycleWith .continue 0x22 ((start [] 0x6000).presentRnd 0x11) = .ok t := by
  refine ⟨⟨_, rfl, rfl⟩, ?_, _, rfl⟩
  rintro x nn ⟨oc, hf, hd⟩
  cases (show Except.ok (0x6000 : Word) = Except.ok (ε := Nat) oc from hf)
  exact absurd (show Except.ok (ε := DecodeReject) (Instr.ldImm 0 0) = .ok (.rnd x nn) from hd) (by simp)

theorem witness_BcdStore :
    (State.reset.setI 0xFFD).I.toNat + 2 ≤ 0xFFF ∧ (State.reset.setI 0xFFE).I.toNat + 2 > 0xFFF := by decide

theorem witness_BulkStore :
    (State.reset.setI 0xFF0).I.toNat + (0xF : RegName).toNat ≤ 0xFFF ∧
      (State.reset.setI 0xFFF).I.toNat + (0 : RegName).toNat ≤ 0xFFF ∧
      (State.reset.setI 0xFF1).I.toNat + (0xF : RegName).toNat > 0xFFF := by decide

theorem witness_BulkLoad :
    (State.reset.setI 0xFF0).I.toNat + (0xF : RegName).toNat ≤ 0xFFF ∧
      (State.reset.setI 0xFFF).I.toNat + (1 : RegName).toNat > 0xFFF := by decide

theorem witness_MemReadAfterMemWrite : (0xFFF : Nat) ≤ 0xFFF ∧ (0x1000 : Nat) > 0xFFF := by decide

/-- N = 0 at the top, the last byte at 0xFFF, the first byte past it. -/
theorem witness_DrawIsXorWithCollision :
    (State.reset.setI 0xFFF).I.toNat + (0 : Nibble).toNat ≤ 0x1000 ∧
      (State.reset.setI 0xFFE).I.toNat + (2 : Nibble).toNat ≤ 0x1000 ∧
      (State.reset.setI 0xFFE).I.toNat + (3 : Nibble).toNat > 0x1000 := by decide

/-- The second draw with the state the first one leaves, and the same registers. -/
theorem witness_DrawingTwiceRestoresTheScreen :
    ∃ t, exec (.drw 0 0 1) (start [(0, 62)] 0) = .next t ∧ t.I = (start [(0, 62)] 0).I ∧
      t.reg 0 = (start [(0, 62)] 0).reg 0 ∧
      ∀ r, r < (1 : Nibble).toNat →
        t.mem.read ((start [(0, 62)] 0).I.toNat + r) = (start [(0, 62)] 0).mem.read ((start [(0, 62)] 0).I.toNat + r) :=
  ⟨_, rfl, rfl, rfl, fun _ _ => rfl⟩

theorem witness_KeySkipsMovePc :
    ((start [(2, 15)] 0).reg 2).toNat < 16 ∧ 16 ≤ ((start [(2, 16)] 0).reg 2).toNat := by decide

/-- The lowest key alone, the highest alone, none. -/
theorem witness_WaitForKeyTakesTheLowest :
    ((State.reset.setKey 0 true).keys[0] = true ∧
        ∀ j : Fin 16, j < 0 → (State.reset.setKey 0 true).keys[j.val] = false) ∧
      ((State.reset.setKey 15 true).keys[15] = true ∧
        ∀ j : Fin 16, j < 15 → (State.reset.setKey 15 true).keys[j.val] = false) ∧
      ∀ k : Fin 16, State.reset.keys[k.val] = false := by decide

theorem witness_ResetState : 79 < 80 ∧ 80 ≤ 80 := by decide

/-- The default font, and another one. -/
theorem witness_ResetInstallsAnyFont :
    fontWellFormed Config.defaultFont = true ∧ fontWellFormed (0xF0 :: List.replicate 79 0x01) = true := by decide

theorem witness_LoadWritesTheProgramOrNothing :
    (List.replicate 3584 (0x12 : Byte)).length ≤ 3584 ∧ 3584 < (List.replicate 3585 (0x12 : Byte)).length := by
  rw [List.length_replicate, List.length_replicate]
  decide

/-- A fresh block, which admits a load; a loaded one. -/
theorem witness_NoOutcomeBeforeTheFirstCycle :
    (Session.Reachable Config.defaultFont .continue (Session.afterReset Config.defaultFont) ∧
        (Session.afterReset Config.defaultFont).phase = .fresh ∧
        ((Session.afterReset Config.defaultFont).move Config.defaultFont .continue (.load [])).isSome = true) ∧
      ∃ w, Session.Reachable Config.defaultFont .continue w ∧ w.phase = .loaded :=
  ⟨⟨.reset, rfl, rfl⟩, _, .move _ _ (.load [0x12, 0x00]) .reset rfl, rfl⟩

end Sys2Proof.Tests
end

section
/-! SUPPORT. What each instruction does to the two timers, and what a cycle therefore does to them
(40_fetch_execute.md R96). -/

namespace Sys2Proof.Machine

/-- Both timers, the delay timer first (10_state.md R27). -/
def State.timers (s : State) : Byte × Byte := (s.delayTimer, s.soundTimer)

theorem State.timers_eq_iff (s t : State) :
    t.timers = s.timers ↔ t.delayTimer = s.delayTimer ∧ t.soundTimer = s.soundTimer := by
  simp [State.timers]

/-! ### Shared operations that leave the timers -/

@[simp] theorem State.skipIf_timers (s : State) (c : Bool) : (s.skipIf c).timers = s.timers := by
  cases c <;> rfl

@[simp] theorem State.takeRnd_timers (s : State) : s.takeRnd.2.timers = s.timers := by
  rw [State.takeRnd_state]; rfl

@[simp] theorem State.setRegsFrom_timers (s : State) (k : Nat) (bs : List Byte) :
    (s.setRegsFrom k bs).timers = s.timers := by
  rw [State.setRegsFrom_eq]; rfl

theorem State.pushPc_timers (s t : State) (h : s.pushPc = some t) : t.timers = s.timers := by
  unfold State.pushPc at h
  split at h <;> cases h
  rfl

theorem State.popPc_timers (s t : State) (h : s.popPc = some t) : t.timers = s.timers := by
  unfold State.popPc at h
  split at h <;> cases h
  rfl

/-! ### Outcomes that leave the timers -/

/-- Where the outcome goes on, it goes on with the timers of `s`. -/
def KeepsTimers (s : State) (o : Host.Outcome State Fault Refusal) : Prop :=
  ∀ t, o = .next t → t.timers = s.timers

theorem keepsTimers_next (s u : State) (h : u.timers = s.timers) : KeepsTimers s (.next u) := by
  rintro _ ⟨⟩
  exact h

theorem keepsTimers_raise (s : State) (kind : Addr → Word → Fault) (i : Instr) :
    KeepsTimers s (s.raise kind i) := nofun

/-- FX15 and FX18 aside, no instruction writes a timer (10_state.md section 1, the column "written by"). -/
theorem exec_keepsTimers (i : Instr) (s : State) (hd : ∀ x, i ≠ .ldDtVx x) (hs : ∀ x, i ≠ .ldStVx x) :
    KeepsTimers s (exec i s) := by
  cases i with
  | ldDtVx x => exact absurd rfl (hd x)
  | ldStVx x => exact absurd rfl (hs x)
  | seImm | sneImm | seReg | sneReg | skp | sknp => exact keepsTimers_next _ _ (s.skipIf_timers _)
  | rnd => exact keepsTimers_next _ _ s.takeRnd_timers
  | ret u =>
    simp only [exec, execRet]
    split
    next t h => exact keepsTimers_next _ _ (s.popPc_timers t h)
    next => exact keepsTimers_raise _ _ _
  | call nnn =>
    simp only [exec, execCall]
    split
    next t h => exact keepsTimers_next _ _ (s.pushPc_timers t h)
    next => exact keepsTimers_raise _ _ _
  | ldVxK x =>
    simp only [exec, execLdVxK]
    split <;> exact keepsTimers_next _ _ rfl
  | ldRegs x =>
    simp only [exec, execLdRegs]
    split
    next bs _ => exact keepsTimers_next _ _ (s.setRegsFrom_timers 0 bs)
    next => exact keepsTimers_raise _ _ _
  | drw | ldB | stRegs =>
    simp only [exec, execDrw, execLdB, execStRegs]
    split
    next => exact keepsTimers_next _ _ rfl
    next => exact keepsTimers_raise _ _ _
  | cls | jp | jpV0 | ldI | ldF | addI | ldVxDt | ldImm | addImm | ldReg | orReg | andReg | xorReg | addReg
  | subReg | shr | subn | shl => exact keepsTimers_next _ _ rfl

/-- Everything an instruction that goes on can have done to the timers: FX15 set the delay timer, FX18 the sound
timer, and any other instruction left both (45_timers_input.md R206, R207). -/
theorem exec_next_timers_cases (i : Instr) (s t : State) (h : exec i s = .next t) :
    (∃ x, i = .ldDtVx x ∧ t = s.setDelay (s.reg x)) ∨ (∃ x, i = .ldStVx x ∧ t = s.setSound (s.reg x)) ∨
      t.timers = s.timers := by
  by_cases hd : ∃ x, i = .ldDtVx x
  · obtain ⟨x, rfl⟩ := hd
    exact .inl ⟨x, rfl, (Host.Outcome.next.inj h).symm⟩
  by_cases hs : ∃ x, i = .ldStVx x
  · obtain ⟨x, rfl⟩ := hs
    exact .inr (.inl ⟨x, rfl, (Host.Outcome.next.inj h).symm⟩)
  exact .inr (.inr (exec_keepsTimers i s (not_exists.mp hd) (not_exists.mp hs) t h))

/-- Settles O20: by what a step that goes on can have done, and what its instruction does to the timers; the
pre-increment and the end of the cycle touch neither. -/
theorem cyclesLeaveTimersToTheirInstructions : Obligations.CyclesLeaveTimersToTheirInstructions := by
  intro s t h
  rcases step_next_cases s t h with ⟨i, u, hi, hu, rfl⟩ | ⟨-, rfl⟩
  · rcases exec_next_timers_cases i s.preIncrement u hu with ⟨x, rfl, rfl⟩ | ⟨x, rfl, rfl⟩ | hkept
    · exact ⟨.inr ⟨x, hi, rfl⟩, .inl rfl⟩
    · exact ⟨.inl rfl, .inr ⟨x, hi, rfl⟩⟩
    · obtain ⟨hdelay, hsound⟩ := (State.timers_eq_iff _ _).mp hkept
      exact ⟨.inl hdelay, .inl hsound⟩
  · exact ⟨.inl rfl, .inl rfl⟩

end Sys2Proof.Machine
end

section
/-! SUPPORT. Jumps, calls, returns and compare-skips: where each leaves `pc` and the return stack, and that nothing
else changes (41_control_flow.md R101 to R108). -/

namespace Sys2Proof.Machine

/-! ### Frames -/

theorem State.Frame.refl (s : State) (c : Changes) : s.Frame s c where
  regs _ _ := rfl
  pc _ := rfl
  index _ := rfl
  stack _ := ⟨rfl, rfl⟩
  delay _ := rfl
  sound _ := rfl
  drawing _ := rfl
  screen _ _ _ := rfl
  keys := rfl
  rnd := rfl
  random _ := rfl
  mem _ _ := rfl

theorem State.frame_setPc (s : State) (a : Addr) : s.Frame (s.setPc a) { pc := true } :=
  { State.Frame.refl s { pc := true } with pc := nofun }

/-- `pc` and the return stack at any values, as a call and a return leave them. -/
theorem State.frame_pc_stack (s : State) (a : Addr) (d : Fin 17) (k : Vector Addr 16) :
    s.Frame { s with pc := a, sp := d, stack := k } { pc := true, stack := true } :=
  { State.Frame.refl s { pc := true, stack := true } with pc := nofun, stack := nofun }

/-! ### `skipIf` (R100) -/

theorem State.skipIf_eq_setPc (s : State) (c : Bool) :
    s.skipIf c = s.setPc (if c then s.pc + 2 else s.pc) := by
  cases c <;> rfl

theorem State.frame_skipIf (s : State) (c : Bool) : s.Frame (s.skipIf c) { pc := true } := by
  rw [State.skipIf_eq_setPc]
  exact s.frame_setPc _

theorem State.skipIf_pc_toNat (s : State) (c : Bool) :
    (s.skipIf c).pc.toNat = if c then (s.pc.toNat + 2) % 4096 else s.pc.toNat := by
  cases c
  · rfl
  · exact BitVec.toNat_add s.pc 2

/-- What a skip on the test `c` of the condition `P` does, as the outcome of an instruction. -/
theorem next_skipIf_spec (s : State) {c : Bool} {P : Prop} [Decidable P] (hc : c = true ↔ P) :
    ∃ t, Host.Outcome.next (φ := Fault) (ρ := Refusal) (s.skipIf c) = .next t ∧
      t.pc.toNat = (if P then (s.pc.toNat + 2) % 4096 else s.pc.toNat) ∧ s.Frame t { pc := true } :=
  ⟨s.skipIf c, rfl, by simp only [State.skipIf_pc_toNat, hc], s.frame_skipIf c⟩

theorem beq_iff_toNat_eq (a b : Byte) : (a == b) = true ↔ a.toNat = b.toNat :=
  beq_iff_eq.trans BitVec.toNat_inj.symm

theorem bne_iff_toNat_ne (a b : Byte) : (a != b) = true ↔ a.toNat ≠ b.toNat :=
  bne_iff_ne.trans (not_congr BitVec.toNat_inj.symm)

/-! ### Calls and returns: both outcomes of each -/

theorem exec_call_of_room (s : State) (nnn : Addr) (h : s.sp.val < 16) :
    exec (.call nnn) s =
      .next { s with pc := nnn, sp := ⟨s.sp.val + 1, by omega⟩, stack := s.stack.set s.sp.val s.pc h } := by
  simp only [exec, execCall, State.pushPc_some s h, State.setPc]

theorem exec_call_of_full (s : State) (nnn : Addr) (h : s.sp.val = 16) :
    exec (.call nnn) s = .fault (.stackOverflow (s.pc - 2) (encode (.call nnn))) := by
  simp only [exec, execCall, State.pushPc_none s h, State.raise, State.instrAddr]

theorem exec_ret_of_nonempty (s : State) (u : Nibble) (h : 0 < s.sp.val) :
    exec (.ret u) s =
      .next { s with pc := s.stack[s.sp.val - 1]'(by omega), sp := ⟨s.sp.val - 1, by omega⟩ } := by
  simp only [exec, execRet, State.popPc_some s h]

theorem exec_ret_of_empty (s : State) (u : Nibble) (h : s.sp.val = 0) :
    exec (.ret u) s = .fault (.stackUnderflow (s.pc - 2) (encode (.ret u))) := by
  simp only [exec, execRet, State.popPc_none s h, State.raise, State.instrAddr]

/-! ### The obligations -/

/-- Settles O27: both jumps are one `setPc`, the second to `jumpTarget`. -/
theorem jumpsSetPc : Obligations.JumpsSetPc := fun s nnn =>
  ⟨⟨s.setPc nnn, rfl, rfl, s.frame_setPc _⟩,
    ⟨s.setPc (jumpTarget nnn (s.reg 0)), rfl, jumpTarget_toNat nnn (s.reg 0), s.frame_setPc _⟩⟩

/-- Settles O28, by the call's two outcomes. -/
theorem callPushesAndJumps : Obligations.CallPushesAndJumps := by
  refine fun s nnn => ⟨fun h => ⟨_, exec_call_of_room s nnn h, rfl, rfl, ?_, ?_, ?_⟩, exec_call_of_full s nnn⟩
  · exact Vector.getElem_set_self h
  · intro k hk hne
    exact Vector.getElem_set_ne h hk hne.symm
  · exact s.frame_pc_stack _ _ _

/-- Settles O29, by the return's two outcomes. -/
theorem returnPopsPc : Obligations.ReturnPopsPc := fun s u =>
  ⟨fun h => ⟨_, exec_ret_of_nonempty s u h, rfl, rfl, rfl, s.frame_pc_stack _ _ s.stack⟩, exec_ret_of_empty s u⟩

/-- Settles O30: each of the four is one skip, on a test that compares the bytes as numbers. -/
theorem compareSkipsMovePc : Obligations.CompareSkipsMovePc := fun s x y nn _ =>
  ⟨next_skipIf_spec s (beq_iff_toNat_eq (s.reg x) nn),
    next_skipIf_spec s (bne_iff_toNat_ne (s.reg x) nn),
    next_skipIf_spec s (beq_iff_toNat_eq (s.reg x) (s.reg y)),
    next_skipIf_spec s (bne_iff_toNat_ne (s.reg x) (s.reg y))⟩

end Sys2Proof.Machine
end

section
/-! SUPPORT. The ALU: one register written, or VF and then one register, what is read there after it, and the flags
and results as numbers (42_alu.md R130 to R142). -/

namespace Sys2Proof.Machine

/-! ### Frames of the two ways to write a result -/

theorem State.frame_setReg (s : State) (x : RegName) (v : Byte) : s.Frame (s.setReg x v) { regs := [x] } :=
  { State.Frame.refl s { regs := [x] } with
    regs := fun y hy => s.reg_setReg_other x y v (List.ne_of_not_mem_cons hy) }

theorem State.frame_setFlagThenReg (s : State) (f : Byte) (x : RegName) (v : Byte) :
    s.Frame (s.setFlagThenReg f x v) { regs := [x, 0xF] } :=
  { State.Frame.refl s { regs := [x, 0xF] } with
    regs := fun y hy => by
      obtain ⟨hx, hF⟩ : y ≠ x ∧ y ≠ 0xF := by simpa using hy
      rw [State.reg_setFlagThenReg, if_neg hx, if_neg hF] }

/-! ### The result and the flag read back (R131) -/

/-- The result is written last, so it stands in `V[x]` whatever `x` is. -/
@[simp] theorem State.reg_setFlagThenReg_same (s : State) (f : Byte) (x : RegName) (v : Byte) :
    (s.setFlagThenReg f x v).reg x = v :=
  (s.setFlag f).reg_setReg_same x v

theorem State.reg_setFlagThenReg_VF (s : State) (f : Byte) {x : RegName} (v : Byte) (hx : x ≠ 0xF) :
    (s.setFlagThenReg f x v).reg 0xF = f := by
  rw [State.reg_setFlagThenReg, if_neg hx.symm, if_pos rfl]

/-! ### The flags as numbers -/

theorem flagOf_decide (P : Prop) [Decidable P] : flagOf (decide P) = if P then 1 else 0 := by
  by_cases h : P <;> simp [h]

theorem carryFlag_eq (vx vy : Byte) : carryFlag vx vy = if vx.toNat + vy.toNat > 255 then 1 else 0 :=
  flagOf_decide _

theorem greaterFlag_eq (a b : Byte) : greaterFlag a b = if a.toNat > b.toNat then 1 else 0 :=
  flagOf_decide _

theorem shiftedOutFlag_toNat (v : Byte) : (shiftedOutFlag v).toNat = v.toNat % 2 :=
  (BitVec.toNat_and v 1).trans (Nat.and_one_is_mod v.toNat)

/-- `vx &&& 0xF0` clears the low nibble (R142); checked on each of the 256 bytes. -/
theorem highNibbleFlag_toNat (v : Byte) : (highNibbleFlag v).toNat = v.toNat / 16 * 16 := by
  revert v; decide

/-! ### The results as numbers (R130) -/

/-- The difference of two bytes is the exact difference modulo 256. -/
theorem byte_sub_toNat (a b : Byte) : ((a - b).toNat : Int) = ((a.toNat : Int) - (b.toNat : Int)) % 256 := by
  have hb := b.isLt
  rw [BitVec.toNat_sub]
  omega

theorem byte_shiftRight_one_toNat (v : Byte) : (v >>> 1).toNat = v.toNat / 2 := by
  rw [BitVec.toNat_ushiftRight, Nat.shiftRight_eq_div_pow, Nat.pow_one]

theorem byte_shiftLeft_one_toNat (v : Byte) : (v <<< 1).toNat = v.toNat * 2 % 256 := by
  rw [BitVec.toNat_shiftLeft, Nat.shiftLeft_eq]

/-! ### What a flag and a result do, as the outcome of an instruction -/

/-- The outcome of every ALU instruction with a flag, given what is wanted of its result and of its flag. -/
theorem next_setFlagThenReg_spec (s : State) (f : Byte) (x : RegName) (v : Byte) (Result Flag : Byte → Prop)
    (hv : Result v) (hf : Flag f) :
    ∃ t, Host.Outcome.next (φ := Fault) (ρ := Refusal) (s.setFlagThenReg f x v) = .next t ∧ Result (t.reg x) ∧
      (x ≠ 0xF → Flag (t.reg 0xF)) ∧ s.Frame t { regs := [x, 0xF] } :=
  ⟨s.setFlagThenReg f x v, rfl, by rwa [State.reg_setFlagThenReg_same],
    fun hx => by rwa [State.reg_setFlagThenReg_VF s f v hx], s.frame_setFlagThenReg f x v⟩

/-! ### The obligations -/

/-- Settles O33: each is a flag and a result, and both agree with the exact integers. -/
theorem addAndSubtractWithFlag : Obligations.AddAndSubtractWithFlag := fun s x y =>
  ⟨next_setFlagThenReg_spec s _ x _ (·.toNat = _) (· = _) (BitVec.toNat_add _ _) (carryFlag_eq (s.reg x) (s.reg y)),
    next_setFlagThenReg_spec s _ x _ (fun r => (r.toNat : Int) = _) (· = _)
      (byte_sub_toNat _ _) (greaterFlag_eq (s.reg x) (s.reg y)),
    next_setFlagThenReg_spec s _ x _ (fun r => (r.toNat : Int) = _) (· = _)
      (byte_sub_toNat _ _) (greaterFlag_eq (s.reg y) (s.reg x))⟩

/-- Settles O34: each is a flag and a result, both computed from `V[X]` alone. -/
theorem shiftsOfVXWithFlag : Obligations.ShiftsOfVXWithFlag := fun s x _ =>
  ⟨next_setFlagThenReg_spec s _ x _ (·.toNat = _) (·.toNat = _)
      (byte_shiftRight_one_toNat _) (shiftedOutFlag_toNat (s.reg x)),
    next_setFlagThenReg_spec s _ x _ (·.toNat = _) (·.toNat = _)
      (byte_shiftLeft_one_toNat _) (highNibbleFlag_toNat (s.reg x))⟩

/-- Settles O31: each is one `setReg`. -/
theorem immediateLoadAndAdd : Obligations.ImmediateLoadAndAdd := fun s x nn =>
  ⟨⟨s.setReg x nn, rfl, s.reg_setReg_same x nn, s.frame_setReg x nn⟩,
    ⟨s.setReg x (s.reg x + nn), rfl, by rw [State.reg_setReg_same]; exact BitVec.toNat_add _ _, s.frame_setReg x _⟩⟩

/-- Settles O32: each is one `setReg`, and the library's bitwise operations go bit by bit. -/
theorem movesAndBitwiseOperations : Obligations.MovesAndBitwiseOperations := by
  intro s x y
  refine ⟨⟨s.setReg x (s.reg y), rfl, s.reg_setReg_same x _, s.frame_setReg x _⟩,
    ⟨s.setReg x (s.reg x ||| s.reg y), rfl, fun k => ?_, s.frame_setReg x _⟩,
    ⟨s.setReg x (s.reg x &&& s.reg y), rfl, fun k => ?_, s.frame_setReg x _⟩,
    ⟨s.setReg x (s.reg x ^^^ s.reg y), rfl, fun k => ?_, s.frame_setReg x _⟩⟩
  · rw [State.reg_setReg_same, BitVec.getLsbD_or]
  · rw [State.reg_setReg_same, BitVec.getLsbD_and]
  · rw [State.reg_setReg_same, BitVec.getLsbD_xor]

end Sys2Proof.Machine
end

section
/-! SUPPORT. The two loads of the index register: a write of `I` leaves every other element (43_index_memory.md R160,
R162). -/

namespace Sys2Proof.Machine

theorem State.frame_setI (s : State) (a : Addr) : s.Frame (s.setI a) { index := true } :=
  { State.Frame.refl s { index := true } with index := nofun }

/-! ### The obligation -/

/-- Settles O37: both loads are one `setI`, the second to `glyphAddr`, which is exact because 255 * 5 < 4096. -/
theorem indexLoads : Obligations.IndexLoads := fun s nnn x =>
  ⟨⟨s.setI nnn, rfl, s.setI_I nnn, s.frame_setI nnn⟩,
    ⟨s.setI (glyphAddr (s.reg x)), rfl, glyphAddr_toNat (s.reg x), s.frame_setI _⟩⟩

end Sys2Proof.Machine
end

section
/-! SUPPORT. The wait for a key and the three timer moves: which key the wait takes, what a write of a timer leaves
unchanged, and when sound is active (45_timers_input.md R203 to R207). -/

namespace Sys2Proof.Machine

/-! ### Frames of the two timer writes -/

theorem State.frame_setDelay (s : State) (v : Byte) : s.Frame (s.setDelay v) { delay := true } :=
  { State.Frame.refl s { delay := true } with delay := nofun }

theorem State.frame_setSound (s : State) (v : Byte) : s.Frame (s.setSound v) { sound := true } :=
  { State.Frame.refl s { sound := true } with sound := nofun }

theorem State.soundActive_setSound_iff (s : State) (v : Byte) : (s.setSound v).soundActive = true ↔ v ≠ 0 :=
  bne_iff_ne

/-! ### The key that is taken (R204) -/

/-- A pressed key below which none is pressed is the key found: neither it nor the one found can be the lower. -/
theorem State.lowestKey_toNat_of_lowest (s : State) (k : Fin 16) (hk : s.keys[k.val] = true)
    (hlow : ∀ j : Fin 16, j < k → s.keys[j.val] = false) : ∃ b, s.lowestKey = some b ∧ b.toNat = k.val := by
  cases hb : s.lowestKey with
  | none => exact absurd ((s.lowestKey_none.mp hb) k) (by simp [hk])
  | some b =>
    obtain ⟨hb16, hpressed, hnone⟩ := s.lowestKey_some b hb
    refine ⟨b, rfl, Nat.le_antisymm (Nat.le_of_not_lt fun hkb => ?_) (Nat.le_of_not_lt fun hbk => ?_)⟩
    · exact absurd (hnone k.val hkb) (by simp [hk])
    · exact absurd (hlow ⟨b.toNat, hb16⟩ hbk) (by simp [hpressed])

/-! ### The wait: both outcomes -/

theorem exec_ldVxK_of_pressed (s : State) (x : RegName) (k : Byte) (h : s.lowestKey = some k) :
    exec (.ldVxK x) s = .next (s.setReg x k) := by
  simp only [exec, execLdVxK, h]

theorem exec_ldVxK_of_none (s : State) (x : RegName) (h : s.lowestKey = none) :
    exec (.ldVxK x) s = .next s.retry := by
  simp only [exec, execLdVxK, h]

/-! ### The obligations -/

/-- Settles O47, by the two outcomes of the wait: the key found is written, or `pc` is set back. -/
theorem waitForKeyTakesTheLowest : Obligations.WaitForKeyTakesTheLowest := by
  refine fun s x => ⟨fun k hk hlow => ?_, fun hnone => ?_⟩
  · obtain ⟨b, hb, hbk⟩ := s.lowestKey_toNat_of_lowest k hk hlow
    exact ⟨s.setReg x b, exec_ldVxK_of_pressed s x b hb, by rw [State.reg_setReg_same, hbk], s.frame_setReg x b⟩
  · exact ⟨s.retry, exec_ldVxK_of_none s x (s.lowestKey_none.mpr hnone), s.retry_pc, s.frame_setPc _⟩

/-- Settles O48: each is one write, of a register, the delay timer or the sound timer. -/
theorem timerReadsAndWrites : Obligations.TimerReadsAndWrites := fun s x =>
  ⟨⟨s.setReg x s.delayTimer, rfl, s.reg_setReg_same x _, s.frame_setReg x _⟩,
    ⟨s.setDelay (s.reg x), rfl, s.setDelay_delayTimer _, s.frame_setDelay _⟩,
    ⟨s.setSound (s.reg x), rfl, s.setSound_soundTimer _, s.soundActive_setSound_iff _, s.frame_setSound _⟩⟩

end Sys2Proof.Machine
end

section
/-! SUPPORT. Who writes the keys: no instruction, and so no step; the host's move `keys_in` writes the one it names
(60_exceptions.md R233). -/

namespace Sys2Proof.Machine

/-! ### Shared operations that leave the keys -/

@[simp] theorem State.takeRnd_keys (s : State) : s.takeRnd.2.keys = s.keys := by rw [State.takeRnd_state]

@[simp] theorem State.setRegsFrom_keys (s : State) (k : Nat) (bs : List Byte) :
    (s.setRegsFrom k bs).keys = s.keys := by
  rw [State.setRegsFrom_eq]

/-! ### The core -/

/-- `keys` has no instruction in the column "written by" of 10_state.md section 1. The cases are grouped by how an
instruction can end: always with a state, or with a state or a fault. -/
theorem exec_next_keys (i : Instr) (s t : State) (h : exec i s = .next t) : t.keys = s.keys := by
  cases i with
  | cls | jp | jpV0 | ldI | ldF | addI | ldVxDt | ldDtVx | ldStVx | ldImm | addImm | ldReg | orReg | andReg | xorReg
  | addReg | subReg | shr | subn | shl =>
    cases h
    rfl
  | seImm | sneImm | seReg | sneReg | skp | sknp =>
    cases h
    exact (s.frame_skipIf _).keys
  | rnd =>
    cases h
    exact s.takeRnd_keys
  | ldVxK x =>
    cases hk : s.lowestKey with
    | some k =>
      cases (exec_ldVxK_of_pressed s x k hk).symm.trans h
      rfl
    | none =>
      cases (exec_ldVxK_of_none s x hk).symm.trans h
      rfl
  | ret u =>
    rcases Nat.eq_zero_or_pos s.sp.val with hsp | hsp
    · cases (exec_ret_of_empty s u hsp).symm.trans h
    · cases (exec_ret_of_nonempty s u hsp).symm.trans h
      rfl
  | call nnn =>
    rcases Nat.lt_or_ge s.sp.val 16 with hsp | hsp
    · cases (exec_call_of_room s nnn hsp).symm.trans h
      rfl
    · cases (exec_call_of_full s nnn (by omega)).symm.trans h
  | drw | ldB | stRegs =>
    simp only [exec, execDrw, execLdB, execStRegs] at h
    split at h <;> cases h
    rfl
  | ldRegs x =>
    simp only [exec, execLdRegs] at h
    split at h <;> cases h
    exact s.setRegsFrom_keys 0 _

/-- The pre-increment, an unrecognized word and the end of the cycle leave the keys as well. -/
theorem step_next_keys (s t : State) (h : step s = .next t) : t.keys = s.keys := by
  rcases step_next_cases s t h with ⟨i, u, -, hu, rfl⟩ | ⟨-, rfl⟩
  · exact exec_next_keys i s.preIncrement u hu
  · rfl

/-! ### The host -/

theorem State.setKey_keys_getElem (s : State) (k j : Fin 16) (b : Bool) :
    (s.setKey k b).keys[j.val] = if j = k then b else s.keys[j.val] := by
  simp only [State.setKey_keys, Vector.getElem_set, Fin.val_inj, eq_comm]

/-- Settles O19: the core's half by what a step that goes on can have done, the host's half by what `setKey`
writes, a move that looks at neither the phase nor the outcome. -/
theorem onlyTheHostWritesKeys : Obligations.OnlyTheHostWritesKeys :=
  ⟨step_next_keys, fun _ _ w k b =>
    ⟨{ w with state := w.state.setKey k b }, rfl, fun j => w.state.setKey_keys_getElem k j b, rfl⟩⟩

end Sys2Proof.Machine
end

section
/-! SUPPORT. The decoder, read in both directions: it undoes the encoder, the encoder undoes it, the row it selects is
the opcode map's, and the words it rejects are the four sets of 30_encoding.md R76. -/

namespace Sys2Proof

/-! ### The decoder undoes the encoder -/

/-- The fields of an encoded word are its operands, so the dispatch finds the constructor again; the cases are grouped
by what selects besides the top nibble (30_encoding.md R73, R74). -/
theorem decode_encode (i : Instr) : decode (encode i) = .ok i := by
  cases i with
  | jp | call | ldI | jpV0 | seImm | sneImm | ldImm | addImm | rnd | seReg | sneReg | drw => simp [encode, decode]
  | cls | ret => simp [encode, decode, decodeGroup0]
  | ldReg | orReg | andReg | xorReg | addReg | subReg | shr | subn | shl => simp [encode, decode, decodeGroup8]
  | skp | sknp => simp [encode, decode, decodeGroupE]
  | ldVxDt | ldVxK | ldDtVx | ldStVx | addI | ldF | ldB | stRegs | ldRegs => simp [encode, decode, decodeGroupF]

theorem decodeBytes_encodeBytes_append (i : Instr) (rest : List Byte) :
    decodeBytes (encodeBytes i ++ rest) = .ok (i, rest) := by
  simp only [encodeBytes, List.cons_append, List.nil_append, decodeBytes, wordOfBytes_bytesOfWord, decode_encode]

/-- Settles O1: by the instruction's form, and for its bytes by putting the word together again. -/
theorem decodeEncodeRoundTrip : Obligations.DecodeEncodeRoundTrip := fun i =>
  ⟨decode_encode i, decodeBytes_encodeBytes_append i⟩

/-! ### The encoder undoes the decoder -/

section
variable {oc : Word} {g : Nibble} (hG : fieldG oc = g)
include hG

theorem encodeGNNN_eq_word : encodeGNNN g (fieldNNN oc) = oc := hG ▸ encodeGNNN_fields oc

theorem encodeGXNN_eq_word {nn : Byte} (hNN : fieldNN oc = nn) : encodeGXNN g (fieldX oc) nn = oc :=
  hG ▸ hNN ▸ encodeGXNN_fields oc

theorem encodeGXYN_eq_word {n : Nibble} (hN : fieldN oc = n) : encodeGXYN g (fieldX oc) (fieldY oc) n = oc :=
  hG ▸ hN ▸ encodeGXYN_fields oc

end

/-- A field that the decoder matches as a number, as a bit vector. -/
theorem eq_ofNat_of_toNat_eq {w k : Nat} {a : BitVec w} (h : a.toNat = k) : a = BitVec.ofNat w k := by
  rw [← h, BitVec.ofNat_toNat, BitVec.setWidth_eq]

theorem encode_of_decodeGroup0 {oc : Word} {i : Instr} (hG : fieldG oc = 0x0) (h : decodeGroup0 oc = .ok i) :
    encode i = oc := by
  unfold decodeGroup0 at h
  split at h
  next hCls => cases h; exact encodeGXNN_eq_word hG hCls
  next =>
    split at h <;> cases h
    next hRet => exact encodeGXNN_eq_word hG hRet

theorem encode_of_decodeGroup8 {oc : Word} {i : Instr} (hG : fieldG oc = 0x8) (h : decodeGroup8 oc = .ok i) :
    encode i = oc := by
  unfold decodeGroup8 at h
  split at h <;> cases h
  all_goals
    rename_i hN
    exact encodeGXYN_eq_word hG (eq_ofNat_of_toNat_eq hN)

theorem encode_of_decodeGroupE {oc : Word} {i : Instr} (hG : fieldG oc = 0xE) (h : decodeGroupE oc = .ok i) :
    encode i = oc := by
  unfold decodeGroupE at h
  split at h
  next hSkp => cases h; exact encodeGXNN_eq_word hG hSkp
  next =>
    split at h <;> cases h
    next hSknp => exact encodeGXNN_eq_word hG hSknp

theorem encode_of_decodeGroupF {oc : Word} {i : Instr} (hG : fieldG oc = 0xF) (h : decodeGroupF oc = .ok i) :
    encode i = oc := by
  unfold decodeGroupF at h
  split at h <;> cases h
  all_goals
    rename_i hNN
    exact encodeGXNN_eq_word hG (eq_ofNat_of_toNat_eq hNN)

/-- The decoder keeps every field of the word, or one that the group fixes: the word can be put together again. -/
theorem encode_of_decode {oc : Word} {i : Instr} (h : decode oc = .ok i) : encode i = oc := by
  have hlt := (fieldG oc).isLt
  unfold decode at h
  split at h
  next hG => exact encode_of_decodeGroup0 (eq_ofNat_of_toNat_eq hG) h
  case h_9 hG => exact encode_of_decodeGroup8 (eq_ofNat_of_toNat_eq hG) h
  case h_15 hG => exact encode_of_decodeGroupE (eq_ofNat_of_toNat_eq hG) h
  case h_16 =>
    have hG : (fieldG oc).toNat = 0xF := by grind
    exact encode_of_decodeGroupF (eq_ofNat_of_toNat_eq hG) h
  all_goals
    rename_i hG
    cases h
    have hG' := eq_ofNat_of_toNat_eq hG
    simp [encode, encodeGNNN_eq_word hG', encodeGXNN_eq_word hG' rfl, encodeGXYN_eq_word hG' rfl]

/-- Settles O2, group by group. -/
theorem encodingADecodedWordGivesItBack : Obligations.EncodingADecodedWordGivesItBack :=
  fun _ _ => encode_of_decode

/-! ### The row a word is decoded to -/

/-- The row of the instruction that a word decodes to. -/
def decodeRow (oc : Word) : Option OpcodeRow := (decode oc).toOption.map Instr.row

theorem decodeRow_eq_some_iff (oc : Word) (row : OpcodeRow) :
    decodeRow oc = some row ↔ ∃ i, decode oc = .ok i ∧ i.row = row := by
  cases h : decode oc <;> simp [decodeRow, h, Except.toOption]

theorem decodeGroup0_row_congr {oc oc' : Word} (h : fieldNN oc = fieldNN oc') :
    (decodeGroup0 oc).toOption.map Instr.row = (decodeGroup0 oc').toOption.map Instr.row := by
  simp only [decodeGroup0, h]
  by_cases hCls : fieldNN oc' = 0xE0
  · simp only [if_pos hCls]; rfl
  · by_cases hRet : fieldNN oc' = 0xEE
    · simp only [if_neg hCls, if_pos hRet]; rfl
    · simp only [if_neg hCls, if_neg hRet]; rfl

theorem decodeGroup8_row_congr {oc oc' : Word} (h : fieldN oc = fieldN oc') :
    (decodeGroup8 oc).toOption.map Instr.row = (decodeGroup8 oc').toOption.map Instr.row := by
  simp only [decodeGroup8, h]
  split <;> rfl

theorem decodeGroupE_row_congr {oc oc' : Word} (h : fieldNN oc = fieldNN oc') :
    (decodeGroupE oc).toOption.map Instr.row = (decodeGroupE oc').toOption.map Instr.row := by
  simp only [decodeGroupE, h]
  by_cases hSkp : fieldNN oc' = 0x9E
  · simp only [if_pos hSkp]; rfl
  · by_cases hSknp : fieldNN oc' = 0xA1
    · simp only [if_neg hSkp, if_pos hSknp]; rfl
    · simp only [if_neg hSkp, if_neg hSknp]; rfl

theorem decodeGroupF_row_congr {oc oc' : Word} (h : fieldNN oc = fieldNN oc') :
    (decodeGroupF oc).toOption.map Instr.row = (decodeGroupF oc').toOption.map Instr.row := by
  simp only [decodeGroupF, h]
  split <;> rfl

/-- The row depends on the group and, in the groups 0, E and F, on NN, in group 8 on N (30_encoding.md R73, R74). -/
theorem decodeRow_congr {oc oc' : Word} (hG : fieldG oc = fieldG oc')
    (hNN : fieldG oc ∈ ([0x0, 0xE, 0xF] : List Nibble) → fieldNN oc = fieldNN oc')
    (hN : fieldG oc = 0x8 → fieldN oc = fieldN oc') : decodeRow oc = decodeRow oc' := by
  have hlt := (fieldG oc).isLt
  unfold decodeRow decode
  rw [← hG]
  split
  next h => exact decodeGroup0_row_congr (hNN (by simp [eq_ofNat_of_toNat_eq h]))
  case h_9 h => exact decodeGroup8_row_congr (hN (eq_ofNat_of_toNat_eq h))
  case h_15 h => exact decodeGroupE_row_congr (hNN (by simp [eq_ofNat_of_toNat_eq h]))
  case h_16 =>
    have h : (fieldG oc).toNat = 0xF := by grind
    exact decodeGroupF_row_congr (hNN (by simp [eq_ofNat_of_toNat_eq h]))
  all_goals rfl

/-- In the other twelve groups every word is recognized, and its row has the mask 0xF000. -/
theorem decodeRow_of_topNibble {oc : Word} (hG : fieldG oc ∉ ([0x0, 0x8, 0xE, 0xF] : List Nibble)) :
    decodeRow oc = some ⟨encodeGNNN (fieldG oc) 0, 0xF000⟩ := by
  have h0 : fieldG oc ≠ 0x0 := fun h => hG (by simp [h])
  have h8 : fieldG oc ≠ 0x8 := fun h => hG (by simp [h])
  have hcongr : decodeRow oc = decodeRow (encodeGNNN (fieldG oc) 0) := by
    refine decodeRow_congr (fieldG_encodeGNNN _ _).symm (fun h => ?_) (fun h => absurd h h8)
    rcases List.mem_cons.mp h with h | h
    · exact absurd h h0
    · exact absurd (List.mem_cons_of_mem _ (List.mem_cons_of_mem _ h)) hG
  have hall : ∀ g : Nibble, g ∉ ([0x0, 0x8, 0xE, 0xF] : List Nibble) →
      decodeRow (encodeGNNN g 0) = some ⟨encodeGNNN g 0, 0xF000⟩ := by decide
  exact hcongr.trans (hall _ hG)

/-! ### The opcode map's masks keep the fields the decoder goes by (30_encoding.md R75) -/

theorem fieldG_and (a b : Word) : fieldG (a &&& b) = fieldG a &&& fieldG b := BitVec.extractLsb'_and

theorem fieldN_and (a b : Word) : fieldN (a &&& b) = fieldN a &&& fieldN b := BitVec.extractLsb'_and

theorem fieldNN_and (a b : Word) : fieldNN (a &&& b) = fieldNN a &&& fieldNN b := BitVec.extractLsb'_and

/-- Each row's mask covers the group and the secondary field its group is dispatched by, and its match is one of its
own words; checked on each of the 34 rows. -/
theorem opcodeMap_row_spec : ∀ row ∈ opcodeMap, fieldG row.mask = 0xF ∧
    (fieldG row.matchBits ∈ ([0x0, 0xE, 0xF] : List Nibble) → fieldNN row.mask = 0xFF) ∧
    (fieldG row.matchBits = 0x8 → fieldN row.mask = 0xF) ∧ decodeRow row.matchBits = some row := by
  decide

/-- A word is decoded to the row that selects it: it agrees with the row's match on every field looked at. -/
theorem decodeRow_of_selects {oc : Word} {row : OpcodeRow} (hrow : row ∈ opcodeMap) (h : row.selects oc = true) :
    decodeRow oc = some row := by
  obtain ⟨hG, hNN, hN, hmatch⟩ := opcodeMap_row_spec row hrow
  have hsel : oc &&& row.mask = row.matchBits := eq_of_beq h
  have hgroup : fieldG oc = fieldG row.matchBits := by rw [← hsel, fieldG_and, hG, nibble_and_F]
  rw [← hmatch]
  refine decodeRow_congr hgroup (fun hg => ?_) (fun hg => ?_)
  · rw [← hsel, fieldNN_and, hNN (hgroup ▸ hg), byte_and_FF]
  · rw [← hsel, fieldN_and, hN (hgroup ▸ hg), nibble_and_F]

/-- The model's laws of the constructors, together. -/
theorem encodingFitsItsRow : ∀ i : Instr, Laws.EncodingFitsItsRow.Statement i
  | .cls u => Laws.EncodingFitsItsRow.cls u
  | .ret u => Laws.EncodingFitsItsRow.ret u
  | .jp nnn => Laws.EncodingFitsItsRow.jp nnn
  | .call nnn => Laws.EncodingFitsItsRow.call nnn
  | .seImm x nn => Laws.EncodingFitsItsRow.seImm x nn
  | .sneImm x nn => Laws.EncodingFitsItsRow.sneImm x nn
  | .seReg x y u => Laws.EncodingFitsItsRow.seReg x y u
  | .ldImm x nn => Laws.EncodingFitsItsRow.ldImm x nn
  | .addImm x nn => Laws.EncodingFitsItsRow.addImm x nn
  | .ldReg x y => Laws.EncodingFitsItsRow.ldReg x y
  | .orReg x y => Laws.EncodingFitsItsRow.orReg x y
  | .andReg x y => Laws.EncodingFitsItsRow.andReg x y
  | .xorReg x y => Laws.EncodingFitsItsRow.xorReg x y
  | .addReg x y => Laws.EncodingFitsItsRow.addReg x y
  | .subReg x y => Laws.EncodingFitsItsRow.subReg x y
  | .shr x y => Laws.EncodingFitsItsRow.shr x y
  | .subn x y => Laws.EncodingFitsItsRow.subn x y
  | .shl x y => Laws.EncodingFitsItsRow.shl x y
  | .sneReg x y u => Laws.EncodingFitsItsRow.sneReg x y u
  | .ldI nnn => Laws.EncodingFitsItsRow.ldI nnn
  | .jpV0 nnn => Laws.EncodingFitsItsRow.jpV0 nnn
  | .rnd x nn => Laws.EncodingFitsItsRow.rnd x nn
  | .drw x y n => Laws.EncodingFitsItsRow.drw x y n
  | .skp x => Laws.EncodingFitsItsRow.skp x
  | .sknp x => Laws.EncodingFitsItsRow.sknp x
  | .ldVxDt x => Laws.EncodingFitsItsRow.ldVxDt x
  | .ldVxK x => Laws.EncodingFitsItsRow.ldVxK x
  | .ldDtVx x => Laws.EncodingFitsItsRow.ldDtVx x
  | .ldStVx x => Laws.EncodingFitsItsRow.ldStVx x
  | .addI x => Laws.EncodingFitsItsRow.addI x
  | .ldF x => Laws.EncodingFitsItsRow.ldF x
  | .ldB x => Laws.EncodingFitsItsRow.ldB x
  | .stRegs x => Laws.EncodingFitsItsRow.stRegs x
  | .ldRegs x => Laws.EncodingFitsItsRow.ldRegs x

/-- Settles O3: a selecting row is the decoded row, which gives both the first clause and that it is the only one; the
second clause is the fit of the encoding, since encoding gives the word back. -/
theorem decoderAgreesWithTheOpcodeMap : Obligations.DecoderAgreesWithTheOpcodeMap := by
  refine ⟨fun oc row hrow h => ?_, fun oc i h => ?_, fun oc r1 r2 hr1 hr2 h1 h2 => ?_⟩
  · exact (decodeRow_eq_some_iff oc row).mp (decodeRow_of_selects hrow h)
  · exact encode_of_decode h ▸ encodingFitsItsRow i
  · exact Option.some.inj ((decodeRow_of_selects hr1 h1).symm.trans (decodeRow_of_selects hr2 h2))

/-! ### The words that are rejected (30_encoding.md R76) -/

theorem decodeGroup0_eq_error_iff (oc : Word) :
    decodeGroup0 oc = .error (.unrecognized oc) ↔ oc.toNat % 256 ≠ 0xE0 ∧ oc.toNat % 256 ≠ 0xEE := by
  have hval (v : Byte) : (fieldNN oc).toNat ≠ v.toNat ↔ fieldNN oc ≠ v := not_congr BitVec.toNat_inj
  rw [← fieldNN_toNat, decodeGroup0]
  refine Iff.trans ?_ (and_congr (hval 0xE0) (hval 0xEE)).symm
  split
  next hCls => exact ⟨nofun, fun h => absurd hCls h.1⟩
  next hCls =>
    split
    next hRet => exact ⟨nofun, fun h => absurd hRet h.2⟩
    next hRet => exact ⟨fun _ => ⟨hCls, hRet⟩, fun _ => rfl⟩

theorem decodeGroup8_eq_error_iff (oc : Word) :
    decodeGroup8 oc = .error (.unrecognized oc) ↔ oc.toNat % 16 ∈ [0x8, 0x9, 0xA, 0xB, 0xC, 0xD, 0xF] := by
  have hlt := (fieldN oc).isLt
  rw [← fieldN_toNat, decodeGroup8]
  split
  case h_10 => simp; grind
  all_goals simp [*]

theorem decodeGroupE_eq_error_iff (oc : Word) :
    decodeGroupE oc = .error (.unrecognized oc) ↔ oc.toNat % 256 ≠ 0x9E ∧ oc.toNat % 256 ≠ 0xA1 := by
  have hval (v : Byte) : (fieldNN oc).toNat ≠ v.toNat ↔ fieldNN oc ≠ v := not_congr BitVec.toNat_inj
  rw [← fieldNN_toNat, decodeGroupE]
  refine Iff.trans ?_ (and_congr (hval 0x9E) (hval 0xA1)).symm
  split
  next hSkp => exact ⟨nofun, fun h => absurd hSkp h.1⟩
  next hSkp =>
    split
    next hSknp => exact ⟨nofun, fun h => absurd hSknp h.2⟩
    next hSknp => exact ⟨fun _ => ⟨hSkp, hSknp⟩, fun _ => rfl⟩

theorem decodeGroupF_eq_error_iff (oc : Word) :
    decodeGroupF oc = .error (.unrecognized oc) ↔
      oc.toNat % 256 ∉ [0x07, 0x0A, 0x15, 0x18, 0x1E, 0x29, 0x33, 0x55, 0x65] := by
  rw [← fieldNN_toNat, decodeGroupF]
  split
  case h_10 => simp; grind
  all_goals simp [*]

/-- The group is the top nibble (30_encoding.md R71). -/
theorem fieldG_toNat_eq_div (oc : Word) : (fieldG oc).toNat = oc.toNat / 4096 := by
  have := oc.isLt
  rw [fieldG_toNat]
  omega

/-- Settles O4: in the groups 0, 8, E and F by the secondary field, and no other group rejects a word. -/
theorem unrecognizedWordsAreFourSets : Obligations.UnrecognizedWordsAreFourSets := by
  intro oc
  have hG := fieldG_toNat_eq_div oc
  have hlt : oc.toNat < 65536 := oc.isLt
  have h0 : oc.toNat < 0x1000 ↔ oc.toNat / 4096 = 0 := by omega
  rw [h0, ← hG]
  unfold decode
  split
  next h => simp [h, decodeGroup0_eq_error_iff]
  case h_9 h => simp [h, decodeGroup8_eq_error_iff]
  case h_15 h => simp [h, decodeGroupE_eq_error_iff]
  case h_16 =>
    have h : (fieldG oc).toNat = 0xF := by grind
    simp [h, decodeGroupF_eq_error_iff]
  all_goals
    rename_i h
    simp [h]

/-! ### Fixed words, and the groups -/

/-- Settles O5: the fifteen words, each decoded. -/
theorem writtenOutWordsDecode : Obligations.WrittenOutWordsDecode :=
  ⟨rfl, rfl, rfl, rfl, rfl, rfl, rfl, rfl, rfl, rfl, rfl, rfl, rfl, rfl, rfl⟩

/-- Settles O6: a word of the twelve groups is decoded to the row of its top nibble; the ignored nibble is no argument
of the two meanings; and the row depends on the group and the secondary field alone. -/
theorem topNibbleAloneSelectsTwelveGroups : Obligations.TopNibbleAloneSelectsTwelveGroups := by
  refine ⟨fun oc hG => ?_, fun x y n m s => ⟨rfl, rfl⟩, fun oc oc' hG hsec => ?_⟩
  · have hgroup : fieldG oc ∉ ([0x0, 0x8, 0xE, 0xF] : List Nibble) := by
      simpa [← BitVec.toNat_inj, fieldG_toNat_eq_div] using hG
    obtain ⟨i, hi, hrow⟩ := (decodeRow_eq_some_iff _ _).mp (decodeRow_of_topNibble hgroup)
    refine ⟨i, hi, by rw [hrow], ?_⟩
    simp [hrow, encodeGNNN_toNat, fieldG_toNat_eq_div]
  · have hgroup : fieldG oc = fieldG oc' := by
      rw [← BitVec.toNat_inj, fieldG_toNat_eq_div, fieldG_toNat_eq_div, hG]
    refine decodeRow_congr hgroup (fun hg => ?_) (fun hg => ?_) <;>
      simp only [List.mem_cons, List.not_mem_nil, ← BitVec.toNat_inj, fieldG_toNat_eq_div] at hg
    · rw [← BitVec.toNat_inj, fieldNN_toNat, fieldNN_toNat]
      rcases hsec with ⟨-, h⟩ | ⟨h8, -⟩
      · exact h
      · simp [h8] at hg
    · rw [← BitVec.toNat_inj, fieldN_toNat, fieldN_toNat]
      rcases hsec with ⟨hne, -⟩ | ⟨-, h⟩
      · simp [hg] at hne
      · exact h

end Sys2Proof
end

section
/-! SUPPORT. The instructions that use memory, each with its two outcomes: the run of bytes fits and all of it is moved,
or it passes 0xFFF and nothing is (43_index_memory.md R163 to R165, 20_memory.md R57, R58). -/

namespace Sys2Proof.Machine

/-! ### Runs of addresses and of registers -/

theorem mem_bytesFrom (a base n : Nat) : a ∈ bytesFrom base n ↔ base ≤ a ∧ a < base + n := by
  simp only [bytesFrom, List.mem_map, List.mem_range]
  constructor
  · rintro ⟨k, hk, rfl⟩
    omega
  · rintro ⟨hle, hlt⟩
    exact ⟨a - base, by omega, by omega⟩

theorem mem_regNamesUpTo (x y : RegName) : y ∈ regNamesUpTo x ↔ y.toNat ≤ x.toNat := by
  simp only [regNamesUpTo, List.mem_map, List.mem_range]
  constructor
  · rintro ⟨k, hk, rfl⟩
    rw [BitVec.toNat_ofNat]
    exact Nat.le_trans (Nat.mod_le _ _) (by omega)
  · intro h
    exact ⟨y.toNat, by omega, BitVec.eq_of_toNat_eq (by simp)⟩

theorem Memory.slice_getElem (m : Memory) (a n k : Nat) (h : k < (m.slice a n).length) :
    (m.slice a n)[k] = m.read (a + k) := by
  simp [Memory.slice]

/-- A byte outside a run put in is the old one. -/
theorem Memory.read_writeAll_outside (m : Memory) (a b : Nat) (bs : List Byte) (h : b < a ∨ a + bs.length ≤ b) :
    (m.writeAll a bs).read b = m.read b := by
  rw [Memory.read_writeAll, dif_neg (by omega)]

/-- A byte inside a run put in is the run's. -/
theorem Memory.read_writeAll_inside (m : Memory) (a k : Nat) (bs : List Byte) (h : k < bs.length) :
    (m.writeAll a bs).read (a + k) = bs[k] := by
  rw [Memory.read_writeAll, dif_pos (by omega)]
  simp

/-! ### Frames -/

theorem State.frame_setMem_writeAll (s : State) (a : Nat) (bs : List Byte) :
    s.Frame (s.setMem (s.mem.writeAll a bs)) { stored := bytesFrom a bs.length } :=
  { State.Frame.refl s { stored := bytesFrom a bs.length } with
    mem := fun b hb => by
      rw [mem_bytesFrom] at hb
      exact s.mem.read_writeAll_outside a b bs (by omega) }

theorem State.frame_setRegsFrom (s : State) (x : RegName) (bs : List Byte) (h : bs.length = x.toNat + 1) :
    s.Frame (s.setRegsFrom 0 bs) { regs := regNamesUpTo x } := by
  have hx := x.isLt
  rw [State.setRegsFrom_eq]
  exact { State.Frame.refl s { regs := regNamesUpTo x } with
    regs := fun y hy => by
      rw [mem_regNamesUpTo] at hy
      rw [← State.setRegsFrom_eq, State.reg_setRegsFrom _ _ _ _ (by omega), dif_neg (by omega)] }

/-- A write of `I` on top of a change adds `I` to what changed. -/
theorem State.Frame.setI {s t : State} {c : Changes} (h : s.Frame t c) (a : Addr) :
    s.Frame (t.setI a) { c with index := true } :=
  { h with index := nofun }

/-! ### FX33 -/

theorem exec_ldB_of_fits (s : State) (x : RegName) (h : s.I.toNat + 2 ≤ 0xFFF) :
    exec (.ldB x) s = .next (s.setMem (s.mem.writeAll s.I.toNat (bcdDigits (s.reg x)))) := by
  have hfits : s.I.toNat + (bcdDigits (s.reg x)).length ≤ 0x1000 := by rw [bcdDigits_length]; omega
  simp only [exec, execLdB, writeBytes_ok _ _ _ hfits]

theorem exec_ldB_of_overrun (s : State) (x : RegName) (h : s.I.toNat + 2 > 0xFFF) :
    exec (.ldB x) s = .fault (.outOfRangeAccess (s.pc - 2) (some (encode (.ldB x))) 0x1000) := by
  have hI : s.I.toNat ≤ 0x1000 := Nat.le_of_lt s.I.isLt
  have hover : 0x1000 < s.I.toNat + (bcdDigits (s.reg x)).length := by rw [bcdDigits_length]; omega
  simp only [exec, execLdB, writeBytes_error _ _ _ hI hover]
  rfl

/-- The three digits read back as numbers (R163): each is below 256, so none is cut. -/
theorem Memory.read_writeAll_bcdDigits (m : Memory) (a : Nat) (v : Byte) :
    ((m.writeAll a (bcdDigits v)).read a).toNat = v.toNat / 100 ∧
      ((m.writeAll a (bcdDigits v)).read (a + 1)).toNat = v.toNat / 10 % 10 ∧
      ((m.writeAll a (bcdDigits v)).read (a + 2)).toNat = v.toNat % 10 := by
  have hv := v.isLt
  have hread : ∀ k, (h : k < (bcdDigits v).length) → (m.writeAll a (bcdDigits v)).read (a + k) = (bcdDigits v)[k] :=
    fun k h => m.read_writeAll_inside a k _ h
  refine ⟨(congrArg BitVec.toNat (hread 0 (by simp))).trans ?_, (congrArg BitVec.toNat (hread 1 (by simp))).trans ?_,
    (congrArg BitVec.toNat (hread 2 (by simp))).trans ?_⟩ <;>
    simp only [bcdDigits, List.getElem_cons_zero, List.getElem_cons_succ, BitVec.toNat_ofNat] <;> omega

/-- Settles O39, by the store's two outcomes and the digits read back. -/
theorem bcdStore : Obligations.BcdStore := by
  refine fun s x => ⟨fun h => ?_, exec_ldB_of_overrun s x⟩
  obtain ⟨hundreds, tens, units⟩ := s.mem.read_writeAll_bcdDigits s.I.toNat (s.reg x)
  exact ⟨_, exec_ldB_of_fits s x h, hundreds, tens, units, s.frame_setMem_writeAll _ _⟩

/-! ### FX55 -/

theorem exec_stRegs_of_fits (s : State) (x : RegName) (h : s.I.toNat + x.toNat ≤ 0xFFF) :
    exec (.stRegs x) s =
      .next ((s.setMem (s.mem.writeAll s.I.toNat (s.regsUpTo x))).setI (indexAfterBulk s.I x)) := by
  have hfits : s.I.toNat + (s.regsUpTo x).length ≤ 0x1000 := by rw [State.regsUpTo_length]; omega
  simp only [exec, execStRegs, writeBytes_ok _ _ _ hfits]

theorem exec_stRegs_of_overrun (s : State) (x : RegName) (h : s.I.toNat + x.toNat > 0xFFF) :
    exec (.stRegs x) s = .fault (.outOfRangeAccess (s.pc - 2) (some (encode (.stRegs x))) 0x1000) := by
  have hI : s.I.toNat ≤ 0x1000 := Nat.le_of_lt s.I.isLt
  have hover : 0x1000 < s.I.toNat + (s.regsUpTo x).length := by rw [State.regsUpTo_length]; omega
  simp only [exec, execStRegs, writeBytes_error _ _ _ hI hover]
  rfl

theorem State.frame_stRegs (s : State) (x : RegName) (a : Addr) :
    s.Frame ((s.setMem (s.mem.writeAll s.I.toNat (s.regsUpTo x))).setI a)
      { index := true, stored := bytesFrom s.I.toNat (x.toNat + 1) } := by
  have h := s.frame_setMem_writeAll s.I.toNat (s.regsUpTo x)
  rw [State.regsUpTo_length] at h
  exact h.setI a

theorem Memory.read_writeAll_regsUpTo (m : Memory) (s : State) (a : Nat) {x k : RegName} (h : k.toNat ≤ x.toNat) :
    (m.writeAll a (s.regsUpTo x)).read (a + k.toNat) = s.reg k := by
  have hlt : k.toNat < (s.regsUpTo x).length := by rw [State.regsUpTo_length]; omega
  rw [Memory.read_writeAll_inside _ _ _ _ hlt, State.regsUpTo_getElem, BitVec.ofNat_toNat, BitVec.setWidth_eq]

/-- Settles O40, by the store's two outcomes and the registers read back. -/
theorem bulkStore : Obligations.BulkStore := fun s x =>
  ⟨fun h => ⟨_, exec_stRegs_of_fits s x h, fun _ hk => s.mem.read_writeAll_regsUpTo s _ hk,
      indexAfterBulk_toNat s.I x, s.frame_stRegs x _⟩,
    exec_stRegs_of_overrun s x⟩

/-! ### FX65 -/

theorem exec_ldRegs_of_fits (s : State) (x : RegName) (h : s.I.toNat + x.toNat ≤ 0xFFF) :
    exec (.ldRegs x) s =
      .next ((s.setRegsFrom 0 (s.mem.slice s.I.toNat (x.toNat + 1))).setI (indexAfterBulk s.I x)) := by
  simp only [exec, execLdRegs, readBytes_ok s.mem s.I.toNat (x.toNat + 1) (by omega)]

theorem exec_ldRegs_of_overrun (s : State) (x : RegName) (h : s.I.toNat + x.toNat > 0xFFF) :
    exec (.ldRegs x) s = .fault (.outOfRangeAccess (s.pc - 2) (some (encode (.ldRegs x))) 0x1000) := by
  have hI : s.I.toNat ≤ 0x1000 := Nat.le_of_lt s.I.isLt
  simp only [exec, execLdRegs, readBytes_error s.mem s.I.toNat (x.toNat + 1) hI (by omega)]
  rfl

theorem State.frame_ldRegs (s : State) (x : RegName) (m : Memory) (a i : Addr) :
    s.Frame ((s.setRegsFrom 0 (m.slice a.toNat (x.toNat + 1))).setI i)
      { regs := regNamesUpTo x, index := true } :=
  (s.frame_setRegsFrom x _ (m.slice_length _ _)).setI i

/-- Settles O41, by the load's two outcomes: a register up to X gets the run's byte, the others keep theirs. -/
theorem bulkLoad : Obligations.BulkLoad := by
  refine fun s x => ⟨fun h => ⟨_, exec_ldRegs_of_fits s x h, fun k => ?_,
      indexAfterBulk_toNat s.I x, s.frame_ldRegs x s.mem s.I _⟩,
    exec_ldRegs_of_overrun s x⟩
  have hx := x.isLt
  rw [State.setI_reg, State.reg_setRegsFrom _ _ _ _ (by rw [Memory.slice_length]; omega)]
  by_cases hk : k.toNat ≤ x.toNat
  · rw [if_pos hk, dif_pos (by rw [Memory.slice_length]; omega), Memory.slice_getElem, Nat.sub_zero]
  · rw [if_neg hk, dif_neg (by rw [Memory.slice_length]; omega)]

end Sys2Proof.Machine
end

section
/-! SUPPORT. The random draw, FX1E, the key skips and `MemRead` after `MemWrite`: what each writes, and its frame. -/

namespace Sys2Proof.Machine

/-! ### CXNN (42_alu.md R143) -/

theorem exec_rnd_of_presented (s : State) (x : RegName) (nn r : Byte) (h : s.rnd = some r) :
    exec (.rnd x nn) s = .next (s.setReg x (r &&& nn)) := by
  simp only [exec, execRnd, State.takeRnd_presented s r h]

theorem exec_rnd_of_free (s : State) (x : RegName) (nn : Byte) (h : s.rnd = none) :
    exec (.rnd x nn) s =
      .next (({ s with rndDraws := s.rndDraws + 1 } : State).setReg x (Config.freeRnd s.rndDraws &&& nn)) := by
  simp only [exec, execRnd, State.takeRnd_free s h]

theorem State.frame_setReg_rndDraws (s : State) (x : RegName) (v : Byte) (n : Nat) :
    s.Frame (({ s with rndDraws := n } : State).setReg x v) { regs := [x], random := true } :=
  { s.frame_setReg x v with random := nofun }

/-- Settles O35, by whether the state names a byte. -/
theorem randomDrawIsMasked : Obligations.RandomDrawIsMasked := fun s x nn =>
  ⟨fun r h => ⟨_, exec_rnd_of_presented s x nn r h, State.reg_setReg_same _ _ _, s.frame_setReg x _⟩,
    fun h => ⟨_, exec_rnd_of_free s x nn h, State.reg_setReg_same _ _ _, rfl, s.frame_setReg_rndDraws x _ _⟩⟩

/-! ### FX1E (43_index_memory.md R161) -/

theorem State.frame_setFlag (s : State) (f : Byte) : s.Frame (s.setFlag f) { regs := [0xF] } :=
  s.frame_setReg 0xF f

@[simp] theorem State.reg_setFlag_VF (s : State) (f : Byte) : (s.setFlag f).reg 0xF = f := s.reg_setReg_same 0xF f

theorem indexOverflowFlag_eq (i : Addr) (v : Byte) :
    indexOverflowFlag i v = if i.toNat + v.toNat > 0xFFF then 1 else 0 :=
  flagOf_decide _

/-- Settles O38: the flag is written first, and the addend read from the state it leaves. -/
theorem indexAddSetsOverflow : Obligations.IndexAddSetsOverflow := fun s x =>
  ⟨_, rfl, (s.reg_setFlag_VF _).trans (indexOverflowFlag_eq s.I (s.reg x)), indexPlus_toNat _ _,
    (s.frame_setFlag _).setI _⟩

/-! ### The key skips (45_timers_input.md R200 to R202) -/

/-- Settles O46: each is one skip, on `KeyPressed` or its negation. -/
theorem keySkipsMovePc : Obligations.KeySkipsMovePc := by
  refine fun s x => ⟨fun h => ?_, fun h => ?_⟩
  · have hkey := s.keyPressed_in_range (s.reg x) h
    refine ⟨⟨_, rfl, ?_, s.frame_skipIf _⟩, ⟨_, rfl, ?_, s.frame_skipIf _⟩⟩ <;>
      rw [hkey, State.skipIf_eq_setPc, State.setPc_pc]
    cases s.keys[(s.reg x).toNat] <;> rfl
  · have hkey := s.keyPressed_out_of_range (s.reg x) h
    refine ⟨⟨s, ?_, rfl, State.Frame.refl s _⟩, ⟨s.skip, ?_, rfl, s.frame_setPc _⟩⟩ <;>
      simp only [exec, execSkp, execSknp, hkey] <;> rfl

/-! ### Bytes of memory (20_memory.md R51, R52) -/

/-- Settles O42: inside the address space by the read after a write, outside by the two failures. -/
theorem memReadAfterMemWrite : Obligations.MemReadAfterMemWrite := by
  refine fun m a b v => ⟨fun ha => ⟨_, memWrite_ok m a v (by omega), ?_⟩,
    fun ha => ⟨memWrite_error m a v (by omega), memRead_error m a (by omega)⟩⟩
  by_cases hb : b = a
  · rw [if_pos hb, hb, memRead_ok _ _ (by omega), Memory.read_write_same]
  · simp only [memRead, Memory.read_write_other m a b v hb, if_neg hb]

end Sys2Proof.Machine
end

section
/-! SUPPORT. The screen instructions: the clear, and the draw as S XOR M with the collision S AND M
(44_graphics.md R181 to R186). -/

namespace Sys2Proof.Machine

theorem State.frame_setScreen (s : State) (scr : Screen) : s.Frame (s.setScreen scr) { screen := true } :=
  { State.Frame.refl s { screen := true } with screen := nofun }

/-- Settles O43: the one write is the blank screen. -/
theorem clearTurnsEveryPixelOff : Obligations.ClearTurnsEveryPixelOff := fun s _ =>
  ⟨s.setScreen Screen.blank, rfl, Screen.pixel_blank, s.frame_setScreen _⟩

/-! ### DXYN: both outcomes -/

/-- The sprite of a DXYN drawn: the screen and whether a pixel was turned off. -/
def State.spriteDrawn (s : State) (x y : RegName) (n : Nibble) : Screen × Bool :=
  drawSprite s.screen (s.reg x) (s.reg y) (s.mem.slice s.I.toNat n.toNat)

/-- The state a DXYN that fits leaves. -/
def State.afterDraw (s : State) (x y : RegName) (n : Nibble) : State :=
  ((s.setFlag (collisionFlag (s.spriteDrawn x y n).2)).setScreen (s.spriteDrawn x y n).1).setDrawing true

theorem exec_drw_of_fits (s : State) (x y : RegName) (n : Nibble) (h : s.I.toNat + n.toNat ≤ 0x1000) :
    exec (.drw x y n) s = .next (s.afterDraw x y n) := by
  simp only [exec, execDrw, readBytes_ok _ _ _ h]
  rfl

theorem exec_drw_of_overrun (s : State) (x y : RegName) (n : Nibble) (h : s.I.toNat + n.toNat > 0x1000) :
    exec (.drw x y n) s = .fault (.outOfRangeAccess (s.pc - 2) (some (encode (.drw x y n))) 0x1000) := by
  simp only [exec, execDrw, readBytes_error _ _ _ (Nat.le_of_lt s.I.isLt) h]
  rfl

theorem State.frame_afterDraw (s : State) (x y : RegName) (n : Nibble) :
    s.Frame (s.afterDraw x y n) { regs := [0xF], drawing := true, screen := true } :=
  { s.frame_setFlag (collisionFlag (s.spriteDrawn x y n).2) with drawing := nofun, screen := nofun }

/-! ### The set M of a draw (R184) -/

/-- The pixel `(px, py)` belongs to the set M of the draw DXYN from the state `s`. -/
def State.InSprite (s : State) (x y : RegName) (n : Nibble) (px py : Nat) : Prop :=
  ∃ r b, r < n.toNat ∧ b < 8 ∧ (s.mem.read (s.I.toNat + r)).getLsbD (7 - b) = true ∧
    px % 64 = ((s.reg x).toNat + b) % 64 ∧ py % 32 = ((s.reg y).toNat + r) % 32

theorem State.spriteCovers_iff_inSprite (s : State) (x y : RegName) (n : Nibble) (px py : Nat) :
    spriteCovers (s.reg x).toNat (s.reg y).toNat (s.mem.slice s.I.toNat n.toNat) 0 px py ↔ s.InSprite x y n px py := by
  simp only [spriteCovers, State.InSprite, Memory.slice_getElem, Memory.slice_length, spriteBit, Nat.zero_add]
  constructor
  · rintro ⟨r, hr, b, hb, hbit, hx, hy⟩
    exact ⟨r, b, hr, hb, hbit, hx.symm, hy.symm⟩
  · rintro ⟨r, b, hr, hb, hbit, hx, hy⟩
    exact ⟨r, hr, b, hb, hbit, hx.symm, hy.symm⟩

/-- Coordinates count modulo 64 and 32. -/
theorem State.inSprite_mod (s : State) (x y : RegName) (n : Nibble) (px py : Nat) :
    s.InSprite x y n (px % 64) (py % 32) ↔ s.InSprite x y n px py := by
  simp only [State.InSprite, Nat.mod_mod]

/-- On the screen's own coordinates, as the statements write the set M. -/
theorem State.inSprite_fin (s : State) (x y : RegName) (n : Nibble) (px : Fin 64) (py : Fin 32) :
    s.InSprite x y n px.val py.val ↔
      ∃ r b, r < n.toNat ∧ b < 8 ∧ (s.mem.read (s.I.toNat + r)).getLsbD (7 - b) = true ∧
        px.val = ((s.reg x).toNat + b) % 64 ∧ py.val = ((s.reg y).toNat + r) % 32 := by
  simp only [State.InSprite, Nat.mod_eq_of_lt px.isLt, Nat.mod_eq_of_lt py.isLt]

/-- The sprite drawn: the screen is S XOR M, since a sprite has at most 15 rows and no pixel is toggled twice, and a
pixel was turned off exactly when S AND M is not empty. -/
theorem State.spriteDrawn_spec (s : State) (x y : RegName) (n : Nibble) :
    (∀ px py, (s.spriteDrawn x y n).1.pixel px py = true ↔
        ¬(s.screen.pixel px py = true ↔ s.InSprite x y n px py)) ∧
      ((s.spriteDrawn x y n).2 = true ↔ ∃ px py, s.screen.pixel px py = true ∧ s.InSprite x y n px py) := by
  have hn := n.isLt
  have hspec := drawRows_spec (s.reg x).toNat (s.reg y).toNat (s.mem.slice s.I.toNat n.toNat) 0 (s.screen, false)
    (by rw [Memory.slice_length]; omega)
  simp only [State.spriteCovers_iff_inSprite, Bool.false_eq_true, false_or] at hspec
  exact hspec

theorem State.afterDraw_pixel (s : State) (x y : RegName) (n : Nibble) (px py : Nat) :
    (s.afterDraw x y n).screen.pixel px py = true ↔ ¬(s.screen.pixel px py = true ↔ s.InSprite x y n px py) :=
  (s.spriteDrawn_spec x y n).1 px py

theorem State.afterDraw_reg_VF (s : State) (x y : RegName) (n : Nibble) :
    (s.afterDraw x y n).reg 0xF = flagOf (s.spriteDrawn x y n).2 :=
  s.reg_setFlag_VF _

/-- VF is 1 exactly when S AND M is not empty. -/
theorem State.afterDraw_flag (s : State) (x y : RegName) (n : Nibble) :
    (s.afterDraw x y n).reg 0xF = 1 ↔
      ∃ (px : Fin 64) (py : Fin 32), s.screen.pixel px.val py.val = true ∧ s.InSprite x y n px.val py.val := by
  rw [State.afterDraw_reg_VF, flagOf_eq_one_iff, (s.spriteDrawn_spec x y n).2]
  constructor
  · rintro ⟨px, py, hon, hin⟩
    refine ⟨⟨px % 64, Nat.mod_lt _ (by decide)⟩, ⟨py % 32, Nat.mod_lt _ (by decide)⟩, ?_, ?_⟩
    · rwa [Screen.pixel_mod]
    · rwa [State.inSprite_mod]
  · rintro ⟨px, py, hon, hin⟩
    exact ⟨px.val, py.val, hon, hin⟩

theorem State.afterDraw_flag_zero_or_one (s : State) (x y : RegName) (n : Nibble) :
    (s.afterDraw x y n).reg 0xF = 0 ∨ (s.afterDraw x y n).reg 0xF = 1 := by
  rw [State.afterDraw_reg_VF]
  cases (s.spriteDrawn x y n).2
  · exact .inl rfl
  · exact .inr rfl

/-! ### The obligations -/

/-- Settles O44, by the draw's two outcomes: what it does to a pixel and to VF is said of the set M. -/
theorem drawIsXorWithCollision : Obligations.DrawIsXorWithCollision := by
  refine fun s x y n => ⟨fun h => ⟨_, exec_drw_of_fits s x y n h, fun px py => ?_, s.afterDraw_flag_zero_or_one x y n,
    ?_, rfl, s.frame_afterDraw x y n⟩, exec_drw_of_overrun s x y n⟩
  · rw [← State.inSprite_fin, ne_eq, Bool.eq_iff_iff, State.afterDraw_pixel]
    grind
  · simp only [← State.inSprite_fin]
    exact s.afterDraw_flag x y n

/-- The set M is decided by the origin, `I` and the sprite's bytes. -/
theorem State.inSprite_congr {s u : State} {x y x' y' : RegName} {n : Nibble} (hI : u.I = s.I)
    (hx : u.reg x' = s.reg x) (hy : u.reg y' = s.reg y)
    (hm : ∀ r, r < n.toNat → u.mem.read (s.I.toNat + r) = s.mem.read (s.I.toNat + r)) (px py : Nat) :
    u.InSprite x' y' n px py ↔ s.InSprite x y n px py := by
  unfold State.InSprite
  rw [hI, hx, hy]
  refine exists_congr fun r => exists_congr fun b => and_congr_right fun hr => ?_
  rw [hm r hr]

/-- A draw that goes on did fit. -/
theorem exec_drw_next {s t : State} {x y : RegName} {n : Nibble} (h : exec (.drw x y n) s = .next t) :
    s.I.toNat + n.toNat ≤ 0x1000 ∧ t = s.afterDraw x y n := by
  rcases Nat.lt_or_ge 0x1000 (s.I.toNat + n.toNat) with hover | hfits
  · cases (exec_drw_of_overrun s x y n hover).symm.trans h
  · cases (exec_drw_of_fits s x y n hfits).symm.trans h
    exact ⟨hfits, rfl⟩

/-- Settles O45: both draws have the set M, and S XOR M XOR M is S; the second finds a pixel of M on exactly where the
first turned it on. -/
theorem drawingTwiceRestoresTheScreen : Obligations.DrawingTwiceRestoresTheScreen := by
  intro s t u x y x' y' n hdraw hscreen hI hx hy hm
  obtain ⟨hfits, rfl⟩ := exec_drw_next hdraw
  have hM := State.inSprite_congr hI hx hy hm
  refine ⟨_, exec_drw_of_fits u x' y' n (hI ▸ hfits), ?_, ?_⟩
  · refine Screen.ext_pixel _ _ fun px py _ _ => Bool.eq_iff_iff.mpr ?_
    rw [State.afterDraw_pixel, hscreen, State.afterDraw_pixel, hM]
    grind
  · rw [State.afterDraw_flag]
    refine exists_congr fun px => exists_congr fun py => ?_
    rw [hscreen, State.afterDraw_pixel, hM, ← Bool.not_eq_true]
    grind

end Sys2Proof.Machine
end

section
/-! SUPPORT. The six instructions that can fault, each as one equation, and what every instruction leaves unchanged
(10_state.md section 1). -/

namespace Sys2Proof.Machine

/-! ### The instructions that can fault (60_exceptions.md R221) -/

theorem exec_call_eq (s : State) (nnn : Addr) :
    exec (.call nnn) s =
      if h : s.sp.val < 16 then
        .next { s with pc := nnn, sp := ⟨s.sp.val + 1, by omega⟩, stack := s.stack.set s.sp.val s.pc h }
      else .fault (.stackOverflow (s.pc - 2) (encode (.call nnn))) := by
  split
  next h => exact exec_call_of_room s nnn h
  next h => exact exec_call_of_full s nnn (by omega)

theorem exec_ret_eq (s : State) (u : Nibble) :
    exec (.ret u) s =
      if h : 0 < s.sp.val then
        .next { s with pc := s.stack[s.sp.val - 1]'(by omega), sp := ⟨s.sp.val - 1, by omega⟩ }
      else .fault (.stackUnderflow (s.pc - 2) (encode (.ret u))) := by
  split
  next h => exact exec_ret_of_nonempty s u h
  next h => exact exec_ret_of_empty s u (by omega)

theorem exec_ldB_eq (s : State) (x : RegName) :
    exec (.ldB x) s =
      if s.I.toNat + 2 ≤ 0xFFF then .next (s.setMem (s.mem.writeAll s.I.toNat (bcdDigits (s.reg x))))
      else .fault (.outOfRangeAccess (s.pc - 2) (some (encode (.ldB x))) 0x1000) := by
  split
  next h => exact exec_ldB_of_fits s x h
  next h => exact exec_ldB_of_overrun s x (by omega)

theorem exec_stRegs_eq (s : State) (x : RegName) :
    exec (.stRegs x) s =
      if s.I.toNat + x.toNat ≤ 0xFFF then
        .next ((s.setMem (s.mem.writeAll s.I.toNat (s.regsUpTo x))).setI (indexAfterBulk s.I x))
      else .fault (.outOfRangeAccess (s.pc - 2) (some (encode (.stRegs x))) 0x1000) := by
  split
  next h => exact exec_stRegs_of_fits s x h
  next h => exact exec_stRegs_of_overrun s x (by omega)

theorem exec_ldRegs_eq (s : State) (x : RegName) :
    exec (.ldRegs x) s =
      if s.I.toNat + x.toNat ≤ 0xFFF then
        .next ((s.setRegsFrom 0 (s.mem.slice s.I.toNat (x.toNat + 1))).setI (indexAfterBulk s.I x))
      else .fault (.outOfRangeAccess (s.pc - 2) (some (encode (.ldRegs x))) 0x1000) := by
  split
  next h => exact exec_ldRegs_of_fits s x h
  next h => exact exec_ldRegs_of_overrun s x (by omega)

theorem exec_drw_eq (s : State) (x y : RegName) (n : Nibble) :
    exec (.drw x y n) s =
      if s.I.toNat + n.toNat ≤ 0x1000 then .next (s.afterDraw x y n)
      else .fault (.outOfRangeAccess (s.pc - 2) (some (encode (.drw x y n))) 0x1000) := by
  split
  next h => exact exec_drw_of_fits s x y n h
  next h => exact exec_drw_of_overrun s x y n (by omega)

/-- The wait for a key, as one equation (45_timers_input.md R204). -/
theorem exec_ldVxK_eq (s : State) (x : RegName) :
    exec (.ldVxK x) s = .next (s.lowestKey.elim s.retry (s.setReg x)) := by
  cases h : s.lowestKey with
  | some k => exact exec_ldVxK_of_pressed s x k h
  | none => exact exec_ldVxK_of_none s x h

/-! ### The frame of every instruction -/

theorem State.frame_takeRnd_setReg (s : State) (x : RegName) (v : Byte) :
    s.Frame (s.takeRnd.2.setReg x v) { regs := [x], random := true } := by
  rw [State.takeRnd_state]
  exact s.frame_setReg_rndDraws x v _

theorem State.frame_setReg_or_retry (s : State) (x : RegName) (k : Option Byte) :
    s.Frame (k.elim s.retry (s.setReg x)) { regs := [x], pc := true } := by
  cases k with
  | none => exact { s.frame_setPc (s.pc - 2) with regs := fun _ _ => rfl }
  | some k => exact { s.frame_setReg x k with pc := nofun }

/-- Settles O18. The cases are grouped by what is written: `pc`, a register, a flag and a register, one other element,
or a run of bytes or registers where it fits. -/
theorem everyInstructionKeepsItsFrame : Obligations.EveryInstructionKeepsItsFrame := by
  intro i s t h
  cases i with
  | jp | jpV0 => cases h; exact s.frame_setPc _
  | seImm | sneImm | seReg | sneReg | skp | sknp => cases h; exact s.frame_skipIf _
  | ldImm | addImm | ldReg | orReg | andReg | xorReg | ldVxDt => cases h; exact s.frame_setReg _ _
  | addReg | subReg | shr | subn | shl => cases h; exact s.frame_setFlagThenReg _ _ _
  | rnd => cases h; exact s.frame_takeRnd_setReg _ _
  | ldVxK x =>
    cases (exec_ldVxK_eq s x).symm.trans h
    exact s.frame_setReg_or_retry x _
  | cls => cases h; exact s.frame_setScreen _
  | ldI | ldF => cases h; exact s.frame_setI _
  | addI => cases h; exact (s.frame_setFlag _).setI _
  | ldDtVx => cases h; exact s.frame_setDelay _
  | ldStVx => cases h; exact s.frame_setSound _
  | call nnn =>
    rw [exec_call_eq] at h
    split at h <;> cases h
    exact s.frame_pc_stack _ _ _
  | ret u =>
    rw [exec_ret_eq] at h
    split at h <;> cases h
    exact s.frame_pc_stack _ _ s.stack
  | drw x y n =>
    obtain ⟨-, rfl⟩ := exec_drw_next h
    exact s.frame_afterDraw x y n
  | ldB x =>
    rw [exec_ldB_eq] at h
    split at h <;> cases h
    exact s.frame_setMem_writeAll _ _
  | stRegs x =>
    rw [exec_stRegs_eq] at h
    split at h <;> cases h
    exact s.frame_stRegs x _
  | ldRegs x =>
    rw [exec_ldRegs_eq] at h
    split at h <;> cases h
    exact s.frame_ldRegs x s.mem s.I _

/-! ### What runs next -/

theorem State.NextInstr.unique {s : State} {i j : Instr} (hi : s.NextInstr i) (hj : s.NextInstr j) : i = j := by
  obtain ⟨oc, hf, hd⟩ := hi
  obtain ⟨oc', hf', hd'⟩ := hj
  cases hf.symm.trans hf'
  exact Except.ok.inj (hd.symm.trans hd')

theorem State.not_nextInstr_of_rejected {s : State} {oc : Word} {r : DecodeReject} (hf : s.fetchWord = .ok oc)
    (hd : decode oc = .error r) (i : Instr) : ¬s.NextInstr i := by
  rintro ⟨oc', hf', hd'⟩
  cases hf.symm.trans hf'
  cases hd.symm.trans hd'

/-! ### The draw flag (44_graphics.md R185) -/

theorem changesOf_drawing_eq_false {i : Instr} (s : State) (h : ∀ x y n, i ≠ .drw x y n) :
    (changesOf s i).drawing = false := by
  cases i with
  | drw x y n => exact absurd rfl (h x y n)
  | _ => rfl

theorem exec_next_isDrawing {i : Instr} {s t : State} (h : exec i s = .next t) :
    t.isDrawing = true ↔ s.isDrawing = true ∨ ∃ x y n, i = .drw x y n := by
  by_cases hi : ∃ x y n, i = .drw x y n
  · obtain ⟨x, y, n, rfl⟩ := hi
    obtain ⟨-, rfl⟩ := exec_drw_next h
    exact ⟨fun _ => .inr ⟨x, y, n, rfl⟩, fun _ => rfl⟩
  · have hkept : t.isDrawing = s.isDrawing :=
      (everyInstructionKeepsItsFrame i s t h).drawing
        (changesOf_drawing_eq_false s fun x y n e => hi ⟨x, y, n, e⟩)
    rw [hkept, or_iff_left hi]

/-- Settles O21: by what the executed instruction does to the flag; an unrecognized word leaves it. -/
theorem drawFlagIsRaisedByDrawsOnly : Obligations.DrawFlagIsRaisedByDrawsOnly := by
  intro s t h
  rcases step_next_cases s t h with ⟨i, u, hi, hu, rfl⟩ | ⟨⟨oc, hf, hd⟩, rfl⟩
  · have hdrw : (∃ x y n, i = .drw x y n) ↔ ∃ x y n, s.NextInstr (.drw x y n) :=
      exists_congr fun x => exists_congr fun y => exists_congr fun n => ⟨fun e => e ▸ hi, fun hj => hi.unique hj⟩
    exact (exec_next_isDrawing hu).trans (or_congr_right hdrw)
  · have hno : ¬∃ x y n, s.NextInstr (.drw x y n) := fun ⟨_, _, _, hj⟩ => State.not_nextInstr_of_rejected hf hd _ hj
    exact (or_iff_left hno).symm

/-! ### The bytes of memory (20_memory.md R57) -/

theorem mem_changesOf_stored {i : Instr} {s : State} {a : Nat} (h : a ∈ (changesOf s i).stored) :
    (∃ x, i = .ldB x ∧ s.I.toNat ≤ a ∧ a ≤ s.I.toNat + 2) ∨
      ∃ x, i = .stRegs x ∧ s.I.toNat ≤ a ∧ a ≤ s.I.toNat + x.toNat := by
  cases i with
  | ldB x =>
    obtain ⟨hle, hlt⟩ := (mem_bytesFrom _ _ _).mp h
    exact .inl ⟨x, rfl, hle, by omega⟩
  | stRegs x =>
    obtain ⟨hle, hlt⟩ := (mem_bytesFrom _ _ _).mp h
    exact .inr ⟨x, rfl, hle, by omega⟩
  | _ => cases h

/-- Settles O22: by the frame a changed byte is a stored one. -/
theorem memoryIsWrittenByTwoInstructionsOnly : Obligations.MemoryIsWrittenByTwoInstructionsOnly := by
  intro s t a h hne
  rcases step_next_cases s t h with ⟨i, u, hi, hu, rfl⟩ | ⟨-, rfl⟩
  · have hstored : a ∈ (changesOf s.preIncrement i).stored :=
      Classical.byContradiction fun hna => hne ((everyInstructionKeepsItsFrame i _ u hu).mem a hna)
    rcases mem_changesOf_stored hstored with ⟨x, rfl, ha⟩ | ⟨x, rfl, ha⟩
    · exact .inl ⟨x, hi, ha⟩
    · exact .inr ⟨x, hi, ha⟩
  · exact absurd rfl hne

/-! ### The canonical form of memory (10_state.md R32) -/

/-- Memory after an instruction that goes on: the same data, or a run that fits put in from `I` on. -/
theorem exec_next_mem_cases {i : Instr} {s t : State} (h : exec i s = .next t) :
    t.mem = s.mem ∨ ∃ bs : List Byte, s.I.toNat + bs.length ≤ 0x1000 ∧ t.mem = s.mem.writeAll s.I.toNat bs := by
  cases i with
  | ldB x =>
    rw [exec_ldB_eq] at h
    split at h <;> cases h
    exact .inr ⟨bcdDigits (s.reg x), by rw [bcdDigits_length]; omega, rfl⟩
  | stRegs x =>
    rw [exec_stRegs_eq] at h
    split at h <;> cases h
    exact .inr ⟨s.regsUpTo x, by rw [State.regsUpTo_length]; omega, rfl⟩
  | ldRegs x =>
    rw [exec_ldRegs_eq] at h
    split at h <;> cases h
    exact .inl (s.setRegsFrom_mem _ _)
  | call nnn =>
    rw [exec_call_eq] at h
    split at h <;> cases h
    exact .inl rfl
  | ret u =>
    rw [exec_ret_eq] at h
    split at h <;> cases h
    exact .inl rfl
  | drw x y n =>
    obtain ⟨-, rfl⟩ := exec_drw_next h
    exact .inl rfl
  | ldVxK x =>
    cases (exec_ldVxK_eq s x).symm.trans h
    cases s.lowestKey <;> exact .inl rfl
  | rnd => cases h; exact .inl s.takeRnd_mem
  | seImm | sneImm | seReg | sneReg | skp | sknp =>
    cases h
    rw [State.skipIf_eq_setPc]
    exact .inl rfl
  | _ => cases h; exact .inl rfl

theorem exec_next_inv {i : Instr} {s t : State} (hs : s.Inv) (h : exec i s = .next t) : t.Inv := by
  unfold State.Inv at hs ⊢
  rcases exec_next_mem_cases h with hm | ⟨bs, hfits, hm⟩
  · rwa [hm]
  · rw [hm]
    exact Memory.writeAll_wf _ _ _ hs hfits

/-- Settles O14: the pre-increment, an unrecognized word and the end of the cycle do not touch memory. -/
theorem stepKeepsTheInvariant : Obligations.StepKeepsTheInvariant := by
  intro s t hs h
  rcases step_next_cases s t h with ⟨i, u, -, hu, rfl⟩ | ⟨-, rfl⟩
  · exact exec_next_inv (s := s.preIncrement) (t := u) hs hu
  · exact hs

/-- Settles O15: reset's memory lists nothing. -/
theorem resetMeetsTheInvariant : Obligations.ResetMeetsTheInvariant := reset_mem_wf

/-- The listing of least address in one of two canonical memories is read differently in the other, where the others
are all higher. -/
theorem Memory.read_ne_of_lt {c : Host.Cell} {m n : Memory} (hc : c.2 ≠ Memory.unlisted c.1)
    (hn : ∀ d ∈ n, c.1 < d.1) : Memory.read (c :: m) c.1 ≠ n.read c.1 := by
  rw [Memory.read_cons, if_pos rfl, Memory.read_of_lt n c.1 hn]
  exact hc

/-- Settles O17, by induction on one memory: the first listings agree, since the one of lower address would be read as
its reset content in the other memory, and the rest read the same above it. -/
theorem canonicalMemoriesAreDeterminedByTheirBytes : Obligations.CanonicalMemoriesAreDeterminedByTheirBytes := by
  intro m
  induction m with
  | nil =>
    intro n _ hn h
    cases n with
    | nil => rfl
    | cons d n =>
      obtain ⟨hd, hne, -, -⟩ := (Memory.wf_cons d n).mp hn
      exact absurd (h d.1 hd).symm (Memory.read_ne_of_lt hne (by simp))
  | cons c m ih =>
    intro n hm hn h
    obtain ⟨hc, hcne, hcm, hmwf⟩ := (Memory.wf_cons c m).mp hm
    cases n with
    | nil => exact absurd (h c.1 hc) (Memory.read_ne_of_lt hcne (by simp))
    | cons d n =>
      obtain ⟨hd, hdne, hdn, hnwf⟩ := (Memory.wf_cons d n).mp hn
      rcases Nat.lt_trichotomy c.1 d.1 with hlt | heq | hgt
      · refine absurd (h c.1 hc) (Memory.read_ne_of_lt hcne ?_)
        simpa [hlt] using fun e he => Nat.lt_trans hlt (hdn e he)
      · have hval : c.2 = d.2 := by simpa [heq] using h c.1 hc
        have hrest : m = n := by
          refine ih n hmwf hnwf fun a ha => ?_
          by_cases hac : c.1 = a
          · rw [Memory.read_of_lt m a (hac ▸ hcm), Memory.read_of_lt n a (hac ▸ heq ▸ hdn)]
          · simpa [hac, heq ▸ hac] using h a ha
        rw [Prod.ext heq hval, hrest]
      · refine absurd (h d.1 hd).symm (Memory.read_ne_of_lt hdne ?_)
        simpa [hgt] using fun e he => Nat.lt_trans hgt (hcm e he)

end Sys2Proof.Machine
end

section
/-! SUPPORT. Which cycles fault, with which fault and which information (60_exceptions.md R221, R224, R225), and that
none is refused (R94). -/

namespace Sys2Proof.Machine

/-! ### The faults of the execute phase -/

/-- The fault an instruction raises at the address `a`, fetched as the word `oc`, by the stack depth and `I`
(60_exceptions.md R221, R224). -/
def InstrFaults (a : Addr) (oc : Word) (sp : Fin 17) (I : Addr) (f : Fault) : Instr → Prop
  | .call _ => sp.val = 16 ∧ f = .stackOverflow a oc
  | .ret _ => sp.val = 0 ∧ f = .stackUnderflow a oc
  | .ldB _ => I.toNat + 2 > 0xFFF ∧ f = .outOfRangeAccess a (some oc) 0x1000
  | .stRegs x => I.toNat + x.toNat > 0xFFF ∧ f = .outOfRangeAccess a (some oc) 0x1000
  | .ldRegs x => I.toNat + x.toNat > 0xFFF ∧ f = .outOfRangeAccess a (some oc) 0x1000
  | .drw _ _ n => I.toNat + n.toNat > 0x1000 ∧ f = .outOfRangeAccess a (some oc) 0x1000
  | _ => False

/-- An outcome that goes on under a condition and faults otherwise. -/
theorem ite_next_eq_fault_iff {P : Prop} [Decidable P] (t : State) (f₀ f : Fault) :
    (if P then .next t else .fault f₀ : Host.Outcome State Fault Refusal) = .fault f ↔ ¬P ∧ f = f₀ := by
  by_cases h : P <;> simp [h, eq_comm]

/-- Exactly the six instructions named can fault; each of the others goes on. -/
theorem exec_eq_fault_iff (i : Instr) (s : State) (f : Fault) :
    exec i s = .fault f ↔ InstrFaults (s.pc - 2) (encode i) s.sp s.I f i := by
  cases i with
  | call nnn =>
    rw [exec_call_eq]
    split
    next h => exact ⟨nofun, fun hf => absurd hf.1 (by omega)⟩
    next h => exact ⟨fun hf => ⟨by omega, (Host.Outcome.fault.inj hf).symm⟩, fun hf => congrArg _ hf.2.symm⟩
  | ret u =>
    rw [exec_ret_eq]
    split
    next h => exact ⟨nofun, fun hf => absurd hf.1 (by omega)⟩
    next h => exact ⟨fun hf => ⟨by omega, (Host.Outcome.fault.inj hf).symm⟩, fun hf => congrArg _ hf.2.symm⟩
  | ldB x => rw [exec_ldB_eq, ite_next_eq_fault_iff, Nat.not_le]; rfl
  | stRegs x => rw [exec_stRegs_eq, ite_next_eq_fault_iff, Nat.not_le]; rfl
  | ldRegs x => rw [exec_ldRegs_eq, ite_next_eq_fault_iff, Nat.not_le]; rfl
  | drw x y n => rw [exec_drw_eq, ite_next_eq_fault_iff, Nat.not_le]; rfl
  | ldVxK x => rw [exec_ldVxK_eq]; exact ⟨nofun, nofun⟩
  | _ => exact ⟨nofun, nofun⟩

theorem exec_ne_refused (i : Instr) (s : State) (r : Refusal) : exec i s ≠ .refused r := by
  cases i with
  | call nnn => rw [exec_call_eq]; split <;> exact nofun
  | ret u => rw [exec_ret_eq]; split <;> exact nofun
  | ldB x => rw [exec_ldB_eq]; split <;> exact nofun
  | stRegs x => rw [exec_stRegs_eq]; split <;> exact nofun
  | ldRegs x => rw [exec_ldRegs_eq]; split <;> exact nofun
  | drw x y n => rw [exec_drw_eq]; split <;> exact nofun
  | ldVxK x => rw [exec_ldVxK_eq]; exact nofun
  | _ => exact nofun

/-! ### The faults of a cycle -/

/-- `pc` back at the instruction's address (log 18). -/
theorem addr_add_two_sub_two (a : Addr) : a + 2 - 2 = a := BitVec.add_sub_cancel a 2

theorem CycleResult.ofExec_endCycle_eq_fault_iff (o : Host.Outcome State Fault Refusal) (f : Fault) :
    CycleResult.ofExec (endCycle o) = .fault f ↔ o = .fault f := by
  cases o <;> simp [CycleResult.ofExec]

theorem CycleResult.toHost_eq_fault_iff (c : CycleResult) (f : Fault) : c.toHost = .fault f ↔ c = .fault f := by
  cases c <;> simp [CycleResult.toHost]

theorem unrecognizedWord_eq_fault_iff (policy : UnknownOpcodePolicy) (oc : Word) (s : State) (f : Fault) :
    unrecognizedWord policy oc s = .fault f ↔ policy = .fault ∧ f = .unknownOpcode s.pc oc := by
  cases policy <;> simp [unrecognizedWord, eq_comm]

/-- The conditions under which a cycle faults, in the order of R225: the fetch, the instruction, the policy. They look
at `pc`, `sp`, `I` and the fetched word only. -/
def CycleFaults (policy : UnknownOpcodePolicy) (pc : Addr) (fetched : Except Nat Word) (sp : Fin 17) (I : Addr)
    (f : Fault) : Prop :=
  (pc = 0xFFF ∧ f = .outOfRangeAccess 0xFFF none 0x1000) ∨
    (∃ oc i, fetched = .ok oc ∧ decode oc = .ok i ∧ InstrFaults pc oc sp I f i) ∨
    ∃ oc, fetched = .ok oc ∧ decode oc = .error (.unrecognized oc) ∧ policy = .fault ∧ f = .unknownOpcode pc oc

theorem cycle_eq_fault_iff (policy : UnknownOpcodePolicy) (s : State) (f : Fault) :
    cycle policy s = .fault f ↔ CycleFaults policy s.pc s.fetchWord s.sp s.I f := by
  unfold CycleFaults
  rcases s.fetchWord_cases with ⟨hpc, hf⟩ | ⟨hpc, hf⟩
  · simp [cycle, hf, hpc, eq_comm]
  · rw [hf, or_iff_right fun h => hpc h.1]
    generalize wordOfBytes (s.mem.read s.pc.toNat) (s.mem.read (s.pc.toNat + 1)) = oc at hf
    cases hd : decode oc with
    | ok i =>
      have hexec := exec_eq_fault_iff i s.preIncrement f
      rw [State.preIncrement_pc, addr_add_two_sub_two, encode_of_decode hd, State.preIncrement_sp,
        State.preIncrement_I] at hexec
      simp [cycle, hf, hd, CycleResult.ofExec_endCycle_eq_fault_iff, hexec]
    | error r =>
      obtain rfl := decode_error_eq _ _ hd
      simp [cycle, hf, hd, unrecognizedWord_eq_fault_iff]

/-- `InstrFaults` as the statement O10 lists it. -/
theorem instrFaults_iff (a : Addr) (oc : Word) (sp : Fin 17) (I : Addr) (f : Fault) (i : Instr) :
    InstrFaults a oc sp I f i ↔
      ((∃ nnn, i = .call nnn) ∧ sp.val = 16 ∧ f = .stackOverflow a oc) ∨
        ((∃ u, i = .ret u) ∧ sp.val = 0 ∧ f = .stackUnderflow a oc) ∨
        (((∃ x, i = .ldB x ∧ I.toNat + 2 > 0xFFF) ∨
            (∃ x, i = .stRegs x ∧ I.toNat + x.toNat > 0xFFF) ∨
            (∃ x, i = .ldRegs x ∧ I.toNat + x.toNat > 0xFFF) ∨
            (∃ x y n, i = .drw x y n ∧ n.toNat > 0 ∧ I.toNat + n.toNat - 1 > 0xFFF)) ∧
          f = .outOfRangeAccess a (some oc) 0x1000) := by
  cases i with
  | drw x y n =>
    have hlt : I.toNat < 0x1000 := I.isLt
    have hrange : I.toNat + n.toNat > 0x1000 ↔ ∃ x' y' n', Instr.drw x y n = .drw x' y' n' ∧ n'.toNat > 0 ∧
        I.toNat + n'.toNat - 1 > 0xFFF := by
      refine ⟨fun h => ⟨x, y, n, rfl, by omega, by omega⟩, ?_⟩
      rintro ⟨x', y', n', ⟨⟩, hpos, hlast⟩
      omega
    simp only [InstrFaults, hrange, reduceCtorEq, exists_false, false_and, false_or]
  | _ => simp [InstrFaults]

/-- Settles O10: the default policy is `continue`, under which an unrecognized word is no fault. -/
theorem stepFaultsExactlyThen : Obligations.StepFaultsExactlyThen := by
  intro s f
  simp only [← instrFaults_iff]
  have hpolicy : Config.unknownOpcodePolicy ≠ .fault := nofun
  rw [step, CycleResult.toHost_eq_fault_iff, cycle_eq_fault_iff, CycleFaults]
  simp [hpolicy]

theorem CycleResult.toHost_eq_refused_iff (c : CycleResult) (r : Refusal) : c.toHost = .refused r ↔ c = .refused r := by
  cases c <;> simp [CycleResult.toHost]

theorem cycle_ne_refused (policy : UnknownOpcodePolicy) (s : State) (r : Refusal) : cycle policy s ≠ .refused r := by
  rcases cycle_cases policy s with ⟨-, h⟩ | ⟨oc, i, -, -, h⟩ | ⟨oc, -, -, h⟩ <;> rw [h]
  · exact nofun
  · cases hexec : exec i s.preIncrement with
    | next t => exact nofun
    | fault f => exact nofun
    | refused r' => exact absurd hexec (exec_ne_refused i _ r')
  · cases policy <;> exact nofun

/-- Settles O11: no instruction is refused, and neither is a fetch or an unrecognized word. -/
theorem noCycleIsRefused : Obligations.NoCycleIsRefused := fun policy s r =>
  ⟨cycle_ne_refused policy s r, fun h => cycle_ne_refused _ s r ((CycleResult.toHost_eq_refused_iff _ r).mp h)⟩

theorem State.fetchWord_congr {s t : State} (hpc : s.pc = t.pc) (h0 : s.mem.read s.pc.toNat = t.mem.read s.pc.toNat)
    (h1 : s.mem.read (s.pc.toNat + 1) = t.mem.read (s.pc.toNat + 1)) : s.fetchWord = t.fetchWord := by
  rcases s.fetchWord_cases with ⟨hs, hf⟩ | ⟨hs, hf⟩
  · rw [hf, t.fetchWord_top (hpc ▸ hs)]
  · rw [hf, t.fetchWord_ok (hpc ▸ hs), h0, h1, hpc]

/-- Settles O13: the conditions of `CycleFaults` are the same in both states. -/
theorem faultDependsOnPcSpIndexAndWord : Obligations.FaultDependsOnPcSpIndexAndWord := by
  intro policy s t f hpc hsp hI h0 h1 h
  rw [cycle_eq_fault_iff] at h ⊢
  rwa [← hpc, ← hsp, ← hI, ← State.fetchWord_congr hpc h0 h1]

end Sys2Proof.Machine
end

section
/-! SUPPORT. The cycle's parts: the fetch, an instruction, an unrecognized word (40_fetch_execute.md R90 to R97). -/

namespace Sys2Proof.Machine

/-- Settles O8, by the fetch's two outcomes. -/
theorem fetchFaultsAtTheTopOnly : Obligations.FetchFaultsAtTheTopOnly := by
  refine fun s => ⟨fun h => ?_, fun h => ⟨_, s.fetchWord_ok h, wordOfBytes_toNat _ _⟩⟩
  simp only [step, cycle, s.fetchWord_top h, h, CycleResult.toHost]

theorem State.preIncrement_eq (s : State) :
    s.preIncrement = { s with pc := BitVec.ofNat 12 ((s.pc.toNat + 2) % 4096) } := by
  have hpc : s.pc + 2 = BitVec.ofNat 12 ((s.pc.toNat + 2) % 4096) :=
    BitVec.eq_of_toNat_eq (by simp [BitVec.toNat_add])
  rw [← hpc]
  rfl

/-- Settles O7: the two bytes are the word fetched, and the step at an instruction is its execute phase. -/
theorem stepRunsTheDecodedInstruction : Obligations.StepRunsTheDecodedInstruction := by
  intro s oc hpc hoc
  have hne : s.pc ≠ 0xFFF := by
    intro h
    rw [h] at hpc
    exact absurd hpc (by decide)
  have hword : wordOfBytes (s.mem.read s.pc.toNat) (s.mem.read (s.pc.toNat + 1)) = oc :=
    BitVec.eq_of_toNat_eq ((wordOfBytes_toNat _ _).trans hoc.symm)
  have hfetch : s.fetchWord = .ok oc := hword ▸ s.fetchWord_ok hne
  refine ⟨hfetch, fun i hi => ?_⟩
  rw [step_of_nextInstr s i ⟨oc, hfetch, hi⟩, State.preIncrement_eq]

theorem cycle_of_rejected (policy : UnknownOpcodePolicy) {s : State} {oc : Word} {r : DecodeReject}
    (hf : s.fetchWord = .ok oc) (hd : decode oc = .error r) : cycle policy s = unrecognizedWord policy oc s := by
  simp only [cycle, hf, hd]

/-- Settles O9: a rejected word ends the cycle as its policy says. -/
theorem unrecognizedWordOnlyAdvances : Obligations.UnrecognizedWordOnlyAdvances := by
  intro s oc hf hd
  refine ⟨?_, cycle_of_rejected .continue hf hd, cycle_of_rejected .fault hf hd⟩
  rw [step, cycle_of_rejected _ hf hd]
  rfl

/-- Settles O23: the jump undoes the pre-increment. -/
theorem parkedStateStays : Obligations.ParkedStateStays := fun s h => step_of_nextInstr s _ h

/-- Settles O24: the retry undoes the pre-increment. -/
theorem waitingForAKeyChangesNothing : Obligations.WaitingForAKeyChangesNothing := by
  rintro s ⟨⟨x, hx⟩, hkeys⟩
  have hnone : s.preIncrement.lowestKey = none := s.preIncrement.lowestKey_none.mpr hkeys
  have hretry : s.preIncrement.retry = s := by
    simp only [State.retry, State.preIncrement, State.setPc, addr_add_two_sub_two]
  rw [step_of_nextInstr s _ hx, exec_ldVxK_of_none _ x hnone, hretry]
  rfl

/-- Settles O25: the call writes `pc` to the entry at its depth, and the return at the depth above reads that entry. -/
theorem returnUndoesTheCall : Obligations.ReturnUndoesTheCall := by
  intro s nnn h hcall
  have hstep := step_of_nextInstr s _ hcall
  rw [exec_call_of_room s.preIncrement nnn h] at hstep
  refine ⟨_, hstep, rfl, fun u x hret hsp hentry => ?_⟩
  have hdepth : u.sp.val = s.sp.val + 1 := congrArg Fin.val hsp
  have hpos : 0 < u.preIncrement.sp.val := by rw [State.preIncrement_sp]; omega
  have hstep' := step_of_nextInstr u _ hret
  rw [exec_ret_of_nonempty u.preIncrement x hpos] at hstep'
  refine ⟨_, hstep', ?_, ?_⟩
  · have hindex : u.sp.val - 1 = s.sp.val := by omega
    show u.stack[u.sp.val - 1]'(by omega) = s.pc + 2
    simp only [hindex, hentry]
    exact Vector.getElem_set_self h
  · exact Fin.ext (by simp [hdepth])

/-- Settles O26: FX55 leaves `V[0]` and `V[1]` at `pc` and `pc + 1`, where the next fetch reads. -/
theorem storedInstructionIsTheOneFetched : Obligations.StoredInstructionIsTheOneFetched := by
  intro s i hI hpc hdecode
  have hne : s.pc.toNat ≠ 0xFFF := fun e => hpc (BitVec.eq_of_toNat_eq e)
  have hlt := s.pc.isLt
  have hfits : s.I.toNat + (1 : RegName).toNat ≤ 0xFFF := by
    rw [hI]
    show s.pc.toNat + 1 ≤ 0xFFF
    omega
  have h0 := s.mem.read_writeAll_regsUpTo s s.I.toNat (x := 1) (k := 0) (by decide)
  have h1 := s.mem.read_writeAll_regsUpTo s s.I.toNat (x := 1) (k := 1) (by decide)
  refine ⟨_, exec_stRegs_of_fits s 1 hfits, step_of_nextInstr _ i ⟨_, State.fetchWord_ok _ hpc, ?_⟩⟩
  rw [State.setI_pc, State.setMem_pc, State.setI_mem, State.setMem_mem, ← hI]
  rwa [← h0, ← h1] at hdecode

end Sys2Proof.Machine
end

section
/-! SUPPORT. The byte on `rnd` belongs to its own cycle (10_state.md R33, R35, 60_exceptions.md R234). -/

namespace Sys2Proof.Machine

theorem State.setRegsFrom_presentRnd (s : State) (r : Byte) (k : Nat) (bs : List Byte) :
    (s.presentRnd r).setRegsFrom k bs = (s.setRegsFrom k bs).presentRnd r := by
  induction bs generalizing s k with
  | nil => rfl
  | cons v bs ih => exact ih (s.setReg (BitVec.ofNat 4 k) v) (k + 1)

/-- Two outcomes with one condition and one fault end the cycle alike when their states differ in the byte only. -/
theorem endCycle_ite_congr {P : Prop} [Decidable P] {t u : State} {f : Fault} (h : t.dropRnd = u.dropRnd) :
    endCycle (if P then .next t else .fault f) = endCycle (if P then .next u else .fault f) := by
  by_cases hP : P
  · rw [if_pos hP, if_pos hP, endCycle_next, endCycle_next, h]
  · rw [if_neg hP, if_neg hP]

/-- CXNN aside, no instruction looks at the byte: once the cycle has ended it makes no difference. -/
theorem endCycle_exec_presentRnd (i : Instr) (s : State) (r : Byte) (h : ∀ x nn, i ≠ .rnd x nn) :
    endCycle (exec i (s.presentRnd r)) = endCycle (exec i s) := by
  cases i with
  | rnd x nn => exact absurd rfl (h x nn)
  | seImm | sneImm | seReg | sneReg | skp | sknp =>
    simp only [exec, execSeImm, execSneImm, execSeReg, execSneReg, execSkp, execSknp, State.skipIf_eq_setPc]
    rfl
  | call nnn =>
    rcases Nat.lt_or_ge s.sp.val 16 with hsp | hsp
    · rw [exec_call_of_room s nnn hsp, exec_call_of_room (s.presentRnd r) nnn hsp]
      rfl
    · have hfull : s.sp.val = 16 := by omega
      rw [exec_call_of_full s nnn hfull, exec_call_of_full (s.presentRnd r) nnn hfull]
      rfl
  | ret u =>
    rcases Nat.eq_zero_or_pos s.sp.val with hsp | hsp
    · rw [exec_ret_of_empty s u hsp, exec_ret_of_empty (s.presentRnd r) u hsp]
      rfl
    · rw [exec_ret_of_nonempty s u hsp, exec_ret_of_nonempty (s.presentRnd r) u hsp]
      rfl
  | drw x y n =>
    rw [exec_drw_eq, exec_drw_eq, State.presentRnd_I]
    exact endCycle_ite_congr rfl
  | ldB x =>
    rw [exec_ldB_eq, exec_ldB_eq, State.presentRnd_I]
    exact endCycle_ite_congr rfl
  | stRegs x =>
    rw [exec_stRegs_eq, exec_stRegs_eq, State.presentRnd_I]
    exact endCycle_ite_congr rfl
  | ldRegs x =>
    rw [exec_ldRegs_eq, exec_ldRegs_eq, State.presentRnd_I, State.setRegsFrom_presentRnd]
    exact endCycle_ite_congr rfl
  | ldVxK x =>
    have hkey : (s.presentRnd r).lowestKey = s.lowestKey := rfl
    rw [exec_ldVxK_eq, exec_ldVxK_eq, hkey]
    cases s.lowestKey <;> rfl
  | _ => rfl

theorem cycle_of_nextInstr (policy : UnknownOpcodePolicy) (s : State) (i : Instr) (h : s.NextInstr i) :
    cycle policy s = .ofExec (endCycle (exec i s.preIncrement)) := by
  obtain ⟨oc, hf, hd⟩ := h
  simp only [cycle, hf, hd]

theorem cycleWith_of_nextInstr (policy : UnknownOpcodePolicy) (r : Byte) (s : State) (i : Instr) (h : s.NextInstr i) :
    cycleWith policy r s = .ofExec (endCycle (exec i (s.preIncrement.presentRnd r))) :=
  cycle_of_nextInstr policy (s.presentRnd r) i h

/-- A cycle that goes on, with a diagnostic or without, goes on to `t`. -/
def CycleResult.GoesOnTo (c : CycleResult) (t : State) : Prop := c = .ok t ∨ ∃ d, c = .diag d t

/-- Under either policy a cycle that goes on goes where the step does. -/
theorem step_of_goesOnTo {policy : UnknownOpcodePolicy} {s t : State} (h : (cycle policy s).GoesOnTo t) :
    step s = .next t := by
  rcases cycle_cases policy s with ⟨-, hc⟩ | ⟨oc, i, hf, hd, hc⟩ | ⟨oc, hf, hd, hc⟩ <;> rw [hc] at h
  · rcases h with h | ⟨d, h⟩ <;> cases h
  · rw [step_of_nextInstr s i ⟨oc, hf, hd⟩]
    generalize endCycle (exec i s.preIncrement) = o at h
    cases o <;> rcases h with h | ⟨d, h⟩ <;> cases h
    rfl
  · rw [step, cycle_of_rejected _ hf hd]
    cases policy <;> rcases h with h | ⟨d, h⟩ <;> cases h
    rfl

theorem step_next_rnd {s t : State} (h : step s = .next t) : t.rnd = none := by
  rcases step_next_cases s t h with ⟨i, u, -, -, rfl⟩ | ⟨-, rfl⟩ <;> rfl

/-- A cycle of anything but a CXNN is the one with whatever byte the state names. -/
theorem cycleWith_of_not_rnd (policy : UnknownOpcodePolicy) (r : Byte) (s : State)
    (h : ∀ x nn, ¬s.NextInstr (.rnd x nn)) : cycleWith policy r s = cycle policy s := by
  rcases cycle_cases policy s with ⟨hpc, hc⟩ | ⟨oc, i, hf, hd, hc⟩ | ⟨oc, hf, hd, hc⟩ <;> rw [hc]
  · have hf : (s.presentRnd r).fetchWord = .error 0x1000 := s.fetchWord_top hpc
    simp only [cycleWith, cycle, hf, State.presentRnd_pc]
  · rw [cycleWith_of_nextInstr policy r s i ⟨oc, hf, hd⟩,
      endCycle_exec_presentRnd i _ r fun x nn e => h x nn (e ▸ ⟨oc, hf, hd⟩)]
  · rw [cycleWith, cycle_of_rejected policy (s := s.presentRnd r) hf hd]
    cases policy <;> rfl

/-- Settles O36: an earlier byte is replaced, a CXNN draws the one presented, any other cycle does not look at it, and
a cycle that goes on ends as the step does, with no byte left. -/
theorem randomByteIsThatOfItsCycle : Obligations.RandomByteIsThatOfItsCycle := by
  refine fun policy s r => ⟨fun a => rfl, fun x nn hi => ?_, cycleWith_of_not_rnd policy r s,
    fun t h => step_next_rnd (step_of_goesOnTo h)⟩
  refine ⟨_, cycleWith_of_nextInstr policy r s _ hi, ?_⟩
  exact State.reg_setReg_same _ x _

end Sys2Proof.Machine
end

section
/-! SUPPORT. The host's ports (60_exceptions.md R230 to R235, 70_reset_and_hazards.md R260 to R264), and what holds of
every block that its moves lead to. -/

namespace Sys2Proof.Machine

/-! ### Reset, load, tick, outputs -/

/-- Settles O49: each element is a constant of `State.reset`, and memory reads as its reset content. -/
theorem resetState : Obligations.ResetState := by
  refine ⟨fun x => ?_, rfl, rfl, rfl, fun k => ?_, rfl, rfl, rfl, Screen.pixel_blank, fun k => ?_, rfl,
    fun a ha => if_pos ha, fun a ha => if_neg (Nat.not_lt_of_le ha)⟩
  · exact Vector.getElem_replicate _
  · exact Vector.getElem_replicate _
  · exact Vector.getElem_replicate _

theorem fontWellFormed_length {font : List Byte} (h : fontWellFormed font = true) : font.length = 80 := by
  simp only [fontWellFormed, Bool.and_eq_true, beq_iff_eq] at h
  exact h.1

theorem State.resetWithFont_mem (font : List Byte) :
    (State.resetWithFont font).mem = Memory.writeAll [] 0 (font.take 80) := rfl

theorem State.resetWithFont_mem_of_wellFormed {font : List Byte} (h : fontWellFormed font = true) :
    (State.resetWithFont font).mem = Memory.writeAll [] 0 font := by
  rw [State.resetWithFont_mem, List.take_of_length_le (Nat.le_of_eq (fontWellFormed_length h))]

theorem State.resetWithFont_inv (font : List Byte) : (State.resetWithFont font).Inv := by
  have hlen : (font.take 80).length ≤ 80 := List.length_take_le ..
  exact Memory.writeAll_wf [] 0 (font.take 80) Memory.wf_nil (by omega)

/-- Memory after a font is put in: the font, and 0 past it. -/
theorem Memory.read_writeAll_font {font : List Byte} (hlen : font.length = 80) (a : Nat) :
    (Memory.writeAll [] 0 font).read a = if a < 80 then font.getD a 0 else 0 := by
  split
  next h =>
    have hread := Memory.read_writeAll_inside [] 0 a font (by omega)
    rw [Nat.zero_add] at hread
    rw [hread]; exact List.getElem_eq_getD 0
  next h =>
    rw [Memory.read_writeAll_outside [] 0 a font (by omega), Memory.read_nil]
    exact if_neg h

/-- The default font's bytes are what reset memory reads as already, so the two canonical memories are the same. -/
theorem State.resetWithFont_defaultFont : State.resetWithFont Config.defaultFont = State.reset := by
  have hmem : (State.resetWithFont Config.defaultFont).mem = [] := by
    refine canonicalMemoriesAreDeterminedByTheirBytes _ _ (State.resetWithFont_inv _) Memory.wf_nil fun a _ => ?_
    rw [State.resetWithFont_mem_of_wellFormed (by decide)]
    exact Memory.read_writeAll_font rfl a
  calc State.resetWithFont Config.defaultFont
    _ = State.reset.setMem (State.resetWithFont Config.defaultFont).mem := rfl
    _ = State.reset := by rw [hmem]; rfl

/-- Settles O50: a well-formed font is put in whole, and the default one leaves the reset state. -/
theorem resetInstallsAnyFont : Obligations.ResetInstallsAnyFont := by
  refine ⟨fun font hfont => ?_, State.resetWithFont_defaultFont⟩
  have hlen := fontWellFormed_length hfont
  have hread (a : Nat) : (State.resetWithFont font).mem.read a = if a < 80 then font.getD a 0 else 0 := by
    rw [State.resetWithFont_mem_of_wellFormed hfont, Memory.read_writeAll_font hlen]
  refine ⟨fun a ha => ?_, fun a ha => ?_, rfl⟩
  · rw [hread, if_pos (by omega)]; exact (List.getElem_eq_getD 0).symm
  · rw [hread, if_neg (by omega)]

theorem programFits_iff (bytes : List Byte) : programFits bytes = true ↔ bytes.length ≤ 3584 := by
  rw [programFits, decide_eq_true_iff]

theorem State.load_of_fits (s : State) {bytes : List Byte} (h : bytes.length ≤ 3584) :
    s.load bytes = .ok (s.setMem (s.mem.writeAll 0x200 bytes)) :=
  if_pos ((programFits_iff bytes).mpr h)

theorem State.load_of_too_large (s : State) {bytes : List Byte} (h : 3584 < bytes.length) :
    s.load bytes = .error (.programTooLarge bytes.length) :=
  if_neg fun hfits => Nat.not_le_of_lt h ((programFits_iff bytes).mp hfits)

theorem State.load_ok {bytes : List Byte} {s t : State} (h : s.load bytes = .ok t) :
    bytes.length ≤ 3584 ∧ t = s.setMem (s.mem.writeAll 0x200 bytes) := by
  rcases Nat.lt_or_ge 3584 bytes.length with hlen | hlen
  · cases (s.load_of_too_large hlen).symm.trans h
  · cases (s.load_of_fits hlen).symm.trans h
    exact ⟨hlen, rfl⟩

/-- Settles O51, by the load's two outcomes and what the run put in from 0x200 on reads as. -/
theorem loadWritesTheProgramOrNothing : Obligations.LoadWritesTheProgramOrNothing := fun s bytes =>
  ⟨fun h => ⟨_, s.load_of_fits h, fun j hj => s.mem.read_writeAll_inside 0x200 j bytes hj,
      fun a ha => s.mem.read_writeAll_outside 0x200 a bytes ha, rfl⟩,
    s.load_of_too_large⟩

theorem tickTimer_toNat (v : Byte) : (tickTimer v).toNat = v.toNat - 1 := by
  revert v; decide

/-- Settles O52: each timer is written once, with its old value counted down. -/
theorem tickCountsBothTimersDown : Obligations.TickCountsBothTimersDown := fun s =>
  ⟨tickTimer_toNat s.delayTimer, tickTimer_toNat s.soundTimer,
    { s.frame_setDelay (tickTimer s.delayTimer) with sound := nofun }⟩

/-- Settles O53: each port is one element of the state, and a coordinate on the screen is its own remainder. -/
theorem outputsShowTheStateAndAckClearsTheFlag : Obligations.OutputsShowTheStateAndAckClearsTheFlag := by
  refine fun s x y => ⟨?_, rfl, ?_, rfl⟩
  · exact bne_iff_ne.trans (not_congr BitVec.toNat_inj.symm)
  · simp only [State.fbOut, Screen.pixel, Nat.mod_eq_of_lt x.isLt, Nat.mod_eq_of_lt y.isLt]

/-! ### The host's moves -/

/-- Everything the cycle move can do (R94, R235). -/
theorem Session.move_cycle_cases {font : List Byte} {policy : UnknownOpcodePolicy} {r : Byte} {w w' : Session}
    (h : w.move font policy (.cycle r) = some w') :
    (∃ t o, (cycleWith policy r w.state).GoesOnTo t ∧ w' = ⟨t, .running, some o⟩) ∨
      ∃ f, cycleWith policy r w.state = .fault f ∧ w' = ⟨w.state, .faulted f, some (.fault f)⟩ := by
  have hrun : w.runCycle policy r = some w' := by
    simp only [Session.move] at h
    split at h
    case h_4 => cases h
    all_goals exact h
  unfold Session.runCycle at hrun
  cases hc : cycleWith policy r w.state with
  | ok t => rw [hc] at hrun; cases hrun; exact .inl ⟨t, _, .inl rfl, rfl⟩
  | diag d t => rw [hc] at hrun; cases hrun; exact .inl ⟨t, _, .inr ⟨d, rfl⟩, rfl⟩
  | fault f => rw [hc] at hrun; cases hrun; exact .inr ⟨f, rfl, rfl⟩
  | refused r' => rw [hc] at hrun; cases hrun

theorem Session.load_cases {bytes : List Byte} {w w' : Session} (h : w.load bytes = some w') :
    w.phase = .fresh ∧
      ((∃ t, w.state.load bytes = .ok t ∧ w' = { w with state := t, phase := .loaded }) ∨
        ∃ f, w' = { w with phase := .faulted f }) := by
  unfold Session.load at h
  split at h
  next hfresh =>
    refine ⟨hfresh, ?_⟩
    split at h <;> cases h
    next t ht => exact .inl ⟨t, ht, rfl⟩
    next f hf => exact .inr ⟨f, rfl⟩
  next => cases h

/-- Settles O12: the fault is raised on the state before, looks at nothing the `rnd` input changes, and no move from a
faulted block is a cycle. -/
theorem faultedCycleChangesNothing : Obligations.FaultedCycleChangesNothing := by
  intro font policy r w w' f h hphase
  rcases Session.move_cycle_cases h with ⟨t, o, -, rfl⟩ | ⟨f', hf, rfl⟩
  · cases hphase
  · cases hphase
    refine ⟨rfl, rfl, fun r' => ⟨?_, rfl⟩⟩
    rw [cycleWith, cycle_eq_fault_iff] at hf ⊢
    exact hf

/-- What the host leaves between two moves: canonical memory, no `rnd` byte, no free draw counted. -/
def State.Quiet (s : State) : Prop := s.Inv ∧ s.rnd = none ∧ s.rndDraws = 0

/-- With a byte presented, no free value is drawn. -/
theorem exec_next_rndDraws_of_presented {i : Instr} {s t : State} {r : Byte} (hr : s.rnd = some r)
    (h : exec i s = .next t) : t.rndDraws = s.rndDraws := by
  by_cases hi : ∃ x nn, i = .rnd x nn
  · obtain ⟨x, nn, rfl⟩ := hi
    cases (exec_rnd_of_presented s x nn r hr).symm.trans h
    rfl
  · refine (everyInstructionKeepsItsFrame i s t h).random ?_
    cases i with
    | rnd x nn => exact absurd ⟨x, nn, rfl⟩ hi
    | _ => rfl

theorem State.Quiet.cycleWith {policy : UnknownOpcodePolicy} {r : Byte} {s t : State} (hs : s.Quiet)
    (h : (cycleWith policy r s).GoesOnTo t) : t.Quiet := by
  obtain ⟨hinv, -, hdraws⟩ := hs
  have hstep : step (s.presentRnd r) = .next t := step_of_goesOnTo h
  refine ⟨stepKeepsTheInvariant (s.presentRnd r) t hinv hstep, step_next_rnd hstep, ?_⟩
  rcases step_next_cases _ t hstep with ⟨i, u, -, hu, rfl⟩ | ⟨-, rfl⟩
  · exact (exec_next_rndDraws_of_presented (r := r) rfl hu).trans hdraws
  · exact hdraws

theorem State.Quiet.load {bytes : List Byte} {s t : State} (hs : s.Quiet) (h : s.load bytes = .ok t) : t.Quiet := by
  obtain ⟨hinv, hrnd, hdraws⟩ := hs
  obtain ⟨hlen, rfl⟩ := State.load_ok h
  exact ⟨Memory.writeAll_wf _ _ _ hinv (by omega), hrnd, hdraws⟩

theorem State.resetWithFont_quiet (font : List Byte) : (State.resetWithFont font).Quiet :=
  ⟨State.resetWithFont_inv font, rfl, rfl⟩

theorem Session.move_quiet {font : List Byte} {policy : UnknownOpcodePolicy} {w w' : Session} {m : PortMove}
    (hw : w.state.Quiet) (h : w.move font policy m = some w') : w'.state.Quiet := by
  cases m with
  | reset => cases h; exact State.resetWithFont_quiet font
  | load bytes =>
    obtain ⟨-, ⟨t, ht, rfl⟩ | ⟨f, rfl⟩⟩ := Session.load_cases h
    · exact hw.load ht
    · exact hw
  | keysIn k b => cases h; exact hw
  | tick => cases h; exact hw
  | ackDraw => cases h; exact hw
  | cycle r =>
    rcases Session.move_cycle_cases h with ⟨t, o, ht, rfl⟩ | ⟨f, -, rfl⟩
    · exact hw.cycleWith ht
    · exact hw

/-- Settles O16: it holds after reset, and every move keeps it. -/
theorem everyReachableBlockMeetsTheInvariant : Obligations.EveryReachableBlockMeetsTheInvariant := by
  intro font policy w h
  induction h with
  | reset => exact State.resetWithFont_quiet font
  | move w w' m _ hm ih => exact Session.move_quiet ih hm

/-- Before the first cycle: nothing on the outcome port, and in a fresh block the memory of reset. -/
def Session.AwaitsFirstCycle (font : List Byte) (w : Session) : Prop :=
  (w.phase = .fresh ∨ w.phase = .loaded → w.outcome = none) ∧
    (w.phase = .fresh → w.state.mem = (State.resetWithFont font).mem)

theorem Session.move_awaitsFirstCycle {font : List Byte} {policy : UnknownOpcodePolicy} {w w' : Session} {m : PortMove}
    (hw : w.AwaitsFirstCycle font) (h : w.move font policy m = some w') : w'.AwaitsFirstCycle font := by
  obtain ⟨hout, hmem⟩ := hw
  cases m with
  | reset => cases h; exact ⟨fun _ => rfl, fun _ => rfl⟩
  | load bytes =>
    obtain ⟨hfresh, ⟨t, -, rfl⟩ | ⟨f, rfl⟩⟩ := Session.load_cases h
    · exact ⟨fun _ => hout (.inl hfresh), nofun⟩
    · exact ⟨nofun, nofun⟩
  | keysIn k b => cases h; exact ⟨hout, hmem⟩
  | tick => cases h; exact ⟨hout, hmem⟩
  | ackDraw => cases h; exact ⟨hout, hmem⟩
  | cycle r =>
    rcases Session.move_cycle_cases h with ⟨t, o, -, rfl⟩ | ⟨f, -, rfl⟩
    · exact ⟨nofun, nofun⟩
    · exact ⟨nofun, nofun⟩

theorem Session.awaitsFirstCycle_of_reachable {font : List Byte} {policy : UnknownOpcodePolicy} {w : Session}
    (h : Session.Reachable font policy w) : w.AwaitsFirstCycle font := by
  induction h with
  | reset => exact ⟨fun _ => rfl, fun _ => rfl⟩
  | move w w' m _ hm ih => exact Session.move_awaitsFirstCycle ih hm

/-- Settles O54: the first two clauses hold after reset and every move keeps them; the third is the load move's own
condition. -/
theorem noOutcomeBeforeTheFirstCycle : Obligations.NoOutcomeBeforeTheFirstCycle := by
  intro font policy w h
  obtain ⟨hout, hmem⟩ := Session.awaitsFirstCycle_of_reachable h
  refine ⟨hout, fun hfresh a => by rw [hmem hfresh], fun bytes hload => ?_⟩
  obtain ⟨w', hw'⟩ := Option.isSome_iff_exists.mp hload
  exact (Session.load_cases hw').1

end Sys2Proof.Machine
end
